-- ==== Sys2Proof/Word.lean ====
section
/-! DEFINITION. The one data type every part of the frame core shares: the byte (00_scope.md R10). -/

namespace Sys2Proof

/-- A byte: an 8-bit unsigned value, bit 0 the least significant (00_scope.md R10). -/
abbrev Byte := BitVec 8

end Sys2Proof
end

