-- ==== Sys2Proof/Config.lean ====
section
/-! DEFINITION. The implementation parameters of the frame core (00_scope.md R8) and when a choice of them is well
formed (R9). The spec asks a model to take them as arguments (92_eei_decisions.md, OPEN); every output of the block is
determined, so no free value stands here (93_implementation_defined.md U1). -/

namespace Sys2Proof

/-- The six parameters of 00_scope.md R8. They are fixed when the block is built and no operation changes them
(60_exceptions.md R159). DESIGN CHOICE (log entry 1), safe: they are carried as plain data so that a statement holds for
every well-formed choice. -/
structure Config where
  /-- CHUNK_MAX: the most bytes one `INGEST` carries. -/
  chunkMax : Nat
  /-- ACC_CAP: the accumulator's storage in bytes. -/
  accCap : Nat
  /-- OUT_WIDTH: the width of each channel output word. -/
  outWidth : Nat
  /-- SEQ_WIDTH: the width of the sequence index output. -/
  seqWidth : Nat
  /-- SEQ_INIT: the first sequence index after reset. -/
  seqInit : Nat
  /-- REJ_WIDTH: the width of the rejection counter. -/
  rejWidth : Nat
  deriving DecidableEq, Repr

/-- The constraints of 00_scope.md R8, all of them (R9). -/
def Config.wf (c : Config) : Bool :=
  decide (1 ≤ c.chunkMax) && decide (2 * c.chunkMax + 29 ≤ c.accCap) && decide (20 ≤ c.outWidth) &&
    decide (1 ≤ c.seqWidth) && decide (c.seqInit < 2 ^ c.seqWidth) && decide (1 ≤ c.rejWidth)

/-- The values this hardware takes (00_scope.md R8): a byte-serial port, 31 bytes of storage, 32-bit outputs. -/
def Config.hardware : Config :=
  { chunkMax := 1, accCap := 31, outWidth := 32, seqWidth := 32, seqInit := 0, rejWidth := 32 }

end Sys2Proof
end

