-- ==== Sys2Proof/Syntax.lean ====
section
/-! DEFINITION. The operations of the frame core as data, one constructor for each row of spec/opcode_table.json
(30_encoding.md R72), the 16-byte window they may carry (R60), and the forms in which an operation is presented. -/

namespace Sys2Proof

/-- A 16-byte window, byte `fk` at offset `k` in stream order (30_encoding.md R60, 20_memory.md R42). It is a 16-byte
type: another length cannot be written down (40_packet_codec.md R87). -/
structure Window where
  f0 : Byte
  f1 : Byte
  f2 : Byte
  f3 : Byte
  f4 : Byte
  f5 : Byte
  f6 : Byte
  f7 : Byte
  f8 : Byte
  f9 : Byte
  f10 : Byte
  f11 : Byte
  f12 : Byte
  f13 : Byte
  f14 : Byte
  f15 : Byte
  deriving DecidableEq, Repr

/-- The operations and verdicts of the frame core (30_encoding.md R72). -/
inductive Instr where
  /-- RESET (70_reset_and_hazards.md R170); the byte of its port word is discarded. -/
  | reset
  /-- INGEST of a chunk, first byte first in stream order (41_frame_synchronizer.md R111). -/
  | ingest (chunk : List Byte)
  /-- IDLE, the empty chunk (41_frame_synchronizer.md R117). -/
  | idle
  /-- DECODE.ACCEPT: the decoder given a window with a valid header and trailer (40_packet_codec.md R82). -/
  | decodeAccept (f : Window)
  /-- DECODE.REJECT: the decoder given any other window (40_packet_codec.md R83). -/
  | decodeReject (f : Window)
  /-- ENCODE, the reference function of four integers (40_packet_codec.md R89). -/
  | encode (a b c d : Int)
  deriving DecidableEq, Repr

/-- How an operation is presented. DESIGN CHOICE (log entries 2 and 14), safe: the port is the block's only input, and
beside it stand the standalone decoder (40_packet_codec.md R87) and the reference `ENCODE` (R89). -/
inductive Input where
  /-- A word on the input port, as the number its bits make (30_encoding.md R68, R69). -/
  | port (word : Nat)
  /-- Bytes given to a standalone `DECODE` in stream order; anything but 16 of them is refused (40_packet_codec.md R87). -/
  | window (bytes : List Byte)
  /-- Four integers given to the reference function `ENCODE` (40_packet_codec.md R89). -/
  | operands (a b c d : Int)
  deriving DecidableEq, Repr

/-- Why the decoder of operations gives no operation. -/
inductive Reject where
  /-- `in_count = n` is over CHUNK_MAX (30_encoding.md R69). -/
  | countTooLong (n : Nat)
  /-- A number with more bits than the port has: no word of the port (log entry 9). -/
  | notPortWord
  /-- A `DECODE` of other than 16 bytes (40_packet_codec.md R87). -/
  | windowLength
  deriving DecidableEq, Repr

end Sys2Proof
end

