-- ==== Sys2Proof/Decode.lean ====
section
/-! DEFINITION. From presented bits to an operation: the sync words, the 128-bit view of a window, the port word, the
total decoder that refuses by name, and the encoder written from the same tables (30_encoding.md R60 to R72). -/

namespace Sys2Proof

/-! ### The frame (format FRAME16) -/

/-- The first header byte. UNVERIFIED against the repository (log entry 10), unsafe; the spec's constant (00_scope.md R7). -/
def hdr0 : Byte := 0xDE
/-- The second header byte (00_scope.md R7). -/
def hdr1 : Byte := 0xAD
/-- The first trailer byte (00_scope.md R7). -/
def trl0 : Byte := 0xBE
/-- The second trailer byte (00_scope.md R7). -/
def trl1 : Byte := 0xEF

/-- `valid(f)` of 40_packet_codec.md R81: both sync words are checked, at offsets 0, 1, 14 and 15 alone. -/
def Window.valid (f : Window) : Bool :=
  decide (f.f0 = hdr0) && decide (f.f1 = hdr1) && decide (f.f14 = trl0) && decide (f.f15 = trl1)

/-- The bytes of a window in stream order (30_encoding.md R60). -/
def Window.bytes (f : Window) : List Byte :=
  [f.f0, f.f1, f.f2, f.f3, f.f4, f.f5, f.f6, f.f7, f.f8, f.f9, f.f10, f.f11, f.f12, f.f13, f.f14, f.f15]

/-- The window that 16 bytes in stream order make; no other length makes one (40_packet_codec.md R87). -/
def Window.ofBytes : List Byte → Option Window
  | [b0, b1, b2, b3, b4, b5, b6, b7, b8, b9, b10, b11, b12, b13, b14, b15] =>
    some ⟨b0, b1, b2, b3, b4, b5, b6, b7, b8, b9, b10, b11, b12, b13, b14, b15⟩
  | _ => none

/-- The 128-bit view `F = {f[0], ..., f[15]}`, f[0] most significant (30_encoding.md R61). -/
def Window.view (f : Window) : BitVec 128 :=
  f.f0 ++ f.f1 ++ f.f2 ++ f.f3 ++ f.f4 ++ f.f5 ++ f.f6 ++ f.f7 ++
    f.f8 ++ f.f9 ++ f.f10 ++ f.f11 ++ f.f12 ++ f.f13 ++ f.f14 ++ f.f15

/-! ### The input port (format PORT) -/

/-- Bits of `in_bytes`: CHUNK_MAX lanes of 8 (30_encoding.md R69). -/
def laneBits (c : Config) : Nat := 8 * c.chunkMax

/-- `k = ceil(log2(CHUNK_MAX+1))`, the bits of `in_count` (30_encoding.md R69). With CHUNK_MAX = 1 it is 1, and
`in_count` is the `in_valid` of R68. -/
def countBits (c : Config) : Nat := Nat.clog 2 (c.chunkMax + 1)

/-- The width of the port word: `rst`, `in_count`, `in_bytes` (30_encoding.md R69); 10 with CHUNK_MAX = 1 (R68). -/
def portBits (c : Config) : Nat := 1 + countBits c + laneBits c

/-- The first `n` lanes of `in_bytes`, `in_bytes[0]` first in stream order. DEDUCED (log entry 8), unsafe: the packed
array puts lane `j` in bits `8j+7:8j` of the word. -/
def lanes : Nat → Nat → List Byte
  | 0, _ => []
  | n + 1, w => BitVec.ofNat 8 w :: lanes n (w / 256)

/-- The number `in_bytes` holds when its first lanes are these bytes and the rest are 0. -/
def lanesWord : List Byte → Nat
  | [] => 0
  | b :: bs => b.toNat + 256 * lanesWord bs

/-- The port word `{rst, in_count, in_bytes}` (30_encoding.md R69). -/
def portWord (c : Config) (rst : Bool) (count inBytes : Nat) : Nat :=
  rst.toNat * 2 ^ (countBits c + laneBits c) + count * 2 ^ laneBits c + inBytes

/-- The operation a port word selects (30_encoding.md R68, R69, R72): `rst` first, then `in_count`. -/
def decodePort (c : Config) (w : Nat) : Except Reject Instr :=
  if 2 ^ portBits c ≤ w then .error .notPortWord
  else if w / 2 ^ (countBits c + laneBits c) % 2 = 1 then .ok .reset
  else
    let n := w / 2 ^ laneBits c % 2 ^ countBits c
    if c.chunkMax < n then .error (.countTooLong n)
    else if n = 0 then .ok .idle
    else .ok (.ingest (lanes n w))

/-- The row a window selects: DECODE.ACCEPT is tried first (30_encoding.md R72). -/
def decodeWindowRow (bytes : List Byte) : Except Reject Instr :=
  match Window.ofBytes bytes with
  | none => .error .windowLength
  | some f => if f.valid then .ok (.decodeAccept f) else .ok (.decodeReject f)

/-- The decoder of operations: total, and it refuses by name. -/
def decode (c : Config) : Input → Except Reject Instr
  | .port w => decodePort c w
  | .window bytes => decodeWindowRow bytes
  | .operands a b cc d => .ok (.encode a b cc d)

/-- The words of an operation, with 0 where the encoding does not care (30_encoding.md R68, R69, R72). -/
def encode (c : Config) : Instr → Input
  | .reset => .port (portWord c true 0 0)
  | .ingest chunk => .port (portWord c false chunk.length (lanesWord chunk))
  | .idle => .port (portWord c false 0 0)
  | .decodeAccept f => .window f.bytes
  | .decodeReject f => .window f.bytes
  | .encode a b cc d => .operands a b cc d

/-! ### Words as spec/opcode_table.json numbers them -/

/-- The `n` bytes of a number, the most significant first: the order of the 128-bit view (30_encoding.md R61). -/
def bytesOfView (n w : Nat) : List Byte :=
  (List.range n).map fun k => BitVec.ofNat 8 (w >>> (8 * (n - 1 - k)))

/-- What is presented when an instruction's bits, numbered as the table numbers them, are `w`. DESIGN CHOICE (log entry
18), safe: the two formats of the table share no bit that tells them apart, so the length does; a PORT row has 10 bits
(2 whole bytes), and every other row is FRAME16, whose absent high bits are 0. -/
def tableInput (nbits w : Nat) : Input :=
  if 9 ≤ nbits ∧ nbits ≤ 16 then .port w
  else .window (bytesOfView (max 16 ((nbits + 7) / 8)) w)

/-- The instruction the decoder reads from the table's word `w`, on this hardware's port (30_encoding.md R68). -/
def decodeTableWord (nbits w : Nat) : Option Instr :=
  match decode Config.hardware (tableInput nbits w) with
  | .ok i => some i
  | .error _ => none

end Sys2Proof
end

