-- ==== Sys2Proof/Machine/State.lean ====
section
/-! DEFINITION. What the frame core holds: the tuple `S = (acc, seq_next, rej_count, fault)` of 10_state.md R20, the
machine state before the first reset (70_reset_and_hazards.md R171), what an operation hands out (00_scope.md R14), and
the reasons an operation can be without a next state. All of it is plain data. -/

namespace Sys2Proof.Machine

/-- The fault state element (10_state.md R25). -/
inductive FaultCode where
  /-- NONE, code 0. -/
  | none
  /-- SEQ_EXHAUSTED, code 1: sticky until RESET (60_exceptions.md R154, R155). -/
  | seqExhausted
  deriving DecidableEq, Repr

/-- The spec's state tuple (10_state.md R20). -/
structure Regs where
  /-- The accumulator, oldest byte first (10_state.md R21). R21 lets a model keep it as an unbounded sequence (log entry
  6, safe): the storage bound ACC_CAP is an invariant, not a check. -/
  acc : List Byte
  /-- `seq_next`, 0 to 2^SEQ_WIDTH, the last value meaning exhausted (10_state.md R23). -/
  seqNext : Nat
  /-- `rej_count`, below 2^REJ_WIDTH (10_state.md R24). -/
  rejCount : Nat
  /-- `fault` (10_state.md R25). -/
  fault : FaultCode
  deriving DecidableEq, Repr

/-- The block: nothing is known of it before the first RESET (70_reset_and_hazards.md R171). -/
inductive Block where
  /-- `Unreset`: no acc, no counters and no fault value. -/
  | unreset
  /-- The block after a RESET. -/
  | live (r : Regs)
  deriving DecidableEq, Repr

/-- One sample event, `Sample(q, A, B, C, D)` (42_outputs_and_sequencing.md R130, R138). Its bits on the output are
`Sample.word` in Machine/Operands.lean (30_encoding.md R70; log entry 12, safe). -/
structure Sample where
  seq : Nat
  a : Int
  b : Int
  c : Int
  d : Int
  deriving DecidableEq, Repr

/-- The two results of `DECODE` (40_packet_codec.md R80). No reason goes with a rejection (R81). -/
inductive Verdict where
  | accepted (a b c d : Int)
  | rejected
  deriving DecidableEq, Repr

/-- What the last step handed out. DESIGN CHOICE (log entry 3), safe: each step writes all of it, so the host takes the
events of an operation before the next one by the form of the model (42_outputs_and_sequencing.md R135). -/
structure Output where
  /-- The ordered sample events of the operation (00_scope.md R14, 42_outputs_and_sequencing.md R134). -/
  events : List Sample := []
  /-- The verdict of a standalone `DECODE` (40_packet_codec.md R80). -/
  verdict : Option Verdict := none
  /-- The frame of a reference `ENCODE` (40_packet_codec.md R89). -/
  frame : Option Window := none
  deriving DecidableEq, Repr

/-- The machine. -/
structure State where
  /-- The configuration the block was built with; no operation changes it (60_exceptions.md R159; log entry 1, safe). -/
  cfg : Config
  /-- The block's own state (10_state.md R20, 70_reset_and_hazards.md R171). -/
  block : Block
  /-- What the last step handed out (log entry 3). -/
  out : Output
  /-- The operations the host has still to present, the next one first (20_memory.md R50; DESIGN CHOICE, log entry 2,
  safe). -/
  inputs : List Input
  deriving DecidableEq, Repr

/-- Stops of the MODEL (20_memory.md R41). The spec's own Fault(SEQ_EXHAUSTED) is none of them: its entry is described
(60_exceptions.md R153), so it is a next state with `fault` set (log entry 4). -/
inductive Fault where
  /-- Raised by an accumulator primitive whose requirement is false: "The model faults rather than choosing a value"
  (20_memory.md R41). Safe: every use meets its requirement, so no state raises it. -/
  | accRequirement
  /-- Raised by the loop of `INGEST` if it made more passes than the work bound of 41_frame_synchronizer.md R112 allows.
  Safe: no state raises it. -/
  | workBound
  deriving DecidableEq, Repr

/-- Operations the model gives no meaning (60_exceptions.md R151). A refused run is outside every claim, so each is safe. -/
inductive Refusal where
  /-- An instruction with no meaning in the model yet; raised by an arm of `exec` alone. Safe. -/
  | notModelled (mnemonic : String)
  /-- BAD_CONFIG: raised by every operation under a configuration that breaks 00_scope.md R8 (R9). Safe. -/
  | badConfig
  /-- PRE_RESET: raised by INGEST, IDLE and the reading of a status output in `Unreset` (70_reset_and_hazards.md R171).
  Safe. -/
  | preReset
  /-- CHUNK_TOO_LONG: raised by INGEST of more than CHUNK_MAX bytes (41_frame_synchronizer.md R101). Safe. -/
  | chunkTooLong
  /-- Raised by `step` for a `DECODE` of other than 16 bytes (40_packet_codec.md R87). Safe. -/
  | windowLength
  /-- Raised by `step` for a number that has more bits than the port word (log entry 9). Safe. -/
  | notPortWord
  /-- Raised by DECODE.ACCEPT and DECODE.REJECT for a window that is not of their row: a term that stands for no row of
  the table (40_packet_codec.md R82, R83; log entry 13). Safe. -/
  | windowNotOfRow
  deriving DecidableEq, Repr

/-- The tuple right after RESET under a configuration (10_state.md R31). -/
def Regs.reset (c : Config) : Regs :=
  { acc := [], seqNext := c.seqInit, rejCount := 0, fault := .none }

/-- The machine right after RESET when built with `c`, with `inputs` still to be presented (10_state.md R31). -/
def State.resetWith (c : Config) (inputs : List Input) : State :=
  { cfg := c, block := .live (Regs.reset c), out := {}, inputs := inputs }

/-- The machine at power-up, before the first RESET (70_reset_and_hazards.md R171). -/
def State.powerUp (c : Config) (inputs : List Input) : State :=
  { cfg := c, block := .unreset, out := {}, inputs := inputs }

/-- This hardware right after RESET (10_state.md R31, 00_scope.md R8); nothing is presented yet (log entry 2). -/
def State.reset : State := State.resetWith Config.hardware []

end Sys2Proof.Machine
end

