-- ==== Sys2Proof/Machine/Operands.lean ====
section
/-! DEFINITION. The packet codec's functions of an operand: the channel field (40_packet_codec.md R84), `DECODE` of a
window (R80 to R83), `ENCODE` of four integers (R89), and the bits of a sample event (30_encoding.md R70). -/

namespace Sys2Proof.Machine

/-- `raw = b0<<16 | b1<<8 | b2`, the 24-bit field with its first byte the most significant (30_encoding.md R63,
20_memory.md R43). -/
def rawField (b0 b1 b2 : Byte) : BitVec 24 := b0 ++ b1 ++ b2

/-- `asr(s, k) = floor(s / 2^k)` (00_scope.md R12). UNVERIFIED (log entry 11), safe: the spec
says it takes this from general knowledge, and the division of 40_packet_codec.md R84 is exact. -/
def asr (s : Int) (k : Nat) : Int := s / 2 ^ k

/-- `FieldValue(b0, b1, b2)` by the identity of 40_packet_codec.md R84: shift left by 12 in a 32-bit container, reinterpret
as signed, shift right arithmetically by 12. -/
def fieldValue (b0 b1 b2 : Byte) : Int :=
  let t : BitVec 32 := (rawField b0 b1 b2).setWidth 32 <<< 12
  asr t.toInt 12

/-- `DECODE(f)` (40_packet_codec.md R80 to R83): pure, total, and one of two verdicts. -/
def decodeWindow (f : Window) : Verdict :=
  if f.valid then
    .accepted (fieldValue f.f2 f.f3 f.f4) (fieldValue f.f5 f.f6 f.f7) (fieldValue f.f8 f.f9 f.f10)
      (fieldValue f.f11 f.f12 f.f13)
  else .rejected

/-- `r = X mod 2^20`, the document's "mask to 20 bits" (40_packet_codec.md R89, R91). -/
def mask20 (x : Int) : Nat := (x % 2 ^ 20).toNat

/-- The first byte of an encoded field, `r >> 16` (40_packet_codec.md R89). -/
def fieldByte0 (x : Int) : Byte := BitVec.ofNat 8 (mask20 x >>> 16)

/-- The second byte of an encoded field, `(r >> 8) & 0xFF` (40_packet_codec.md R89). -/
def fieldByte1 (x : Int) : Byte := BitVec.ofNat 8 ((mask20 x >>> 8) &&& 0xFF)

/-- The third byte of an encoded field, `r & 0xFF` (40_packet_codec.md R89). -/
def fieldByte2 (x : Int) : Byte := BitVec.ofNat 8 (mask20 x &&& 0xFF)

/-- `ENCODE(A, B, C, D)` (40_packet_codec.md R89): the don't-care nibbles are 0. -/
def encodeFrame (a b c d : Int) : Window :=
  { f0 := hdr0, f1 := hdr1
    f2 := fieldByte0 a, f3 := fieldByte1 a, f4 := fieldByte2 a
    f5 := fieldByte0 b, f6 := fieldByte1 b, f7 := fieldByte2 b
    f8 := fieldByte0 c, f9 := fieldByte1 c, f10 := fieldByte2 c
    f11 := fieldByte0 d, f12 := fieldByte1 d, f13 := fieldByte2 d
    f14 := trl0, f15 := trl1 }

/-- The channel word that leaves the block: the OUT_WIDTH-bit pattern whose two's-complement reading is the value
(40_packet_codec.md R85). -/
def outWord (w : Nat) (v : Int) : BitVec w := BitVec.ofInt w v

/-- The bits of a sample event, `{seq, A, B, C, D}` (30_encoding.md R70). -/
def Sample.word (c : Config) (e : Sample) :
    BitVec (c.seqWidth + c.outWidth + c.outWidth + c.outWidth + c.outWidth) :=
  BitVec.ofNat c.seqWidth e.seq ++ outWord c.outWidth e.a ++ outWord c.outWidth e.b ++ outWord c.outWidth e.c ++
    outWord c.outWidth e.d

end Sys2Proof.Machine
end

