-- ==== Sys2Proof/Machine/Ops.lean ====
section
/-! DEFINITION. The named operations the meanings share: the accumulator primitives (20_memory.md R41), the marker scan
(41_frame_synchronizer.md R103), the sample and reject paths (42_outputs_and_sequencing.md R130, R133), the entry into the
fault state (60_exceptions.md R153) and its exit (R155), and one whole INGEST (41_frame_synchronizer.md R111). -/

namespace Sys2Proof.Machine

/-! ### The accumulator primitives (20_memory.md R41) -/

/-- `AccRead(k)`, which requires `k < len(acc)` (20_memory.md R41). -/
def accRead (acc : List Byte) (k : Nat) : Except Fault Byte :=
  match acc[k]? with
  | some b => .ok b
  | none => .error .accRequirement

/-- `AccAppend(c)`, the chunk in stream order (20_memory.md R41, R42). -/
def accAppend (acc chunk : List Byte) : List Byte := acc ++ chunk

/-- `AccDrop(n)`, which requires `n <= len(acc)` (20_memory.md R41). -/
def accDrop (acc : List Byte) (n : Nat) : Except Fault (List Byte) :=
  if n ≤ acc.length then .ok (acc.drop n) else .error .accRequirement

/-- `AccKeepSuffix(n)`: the last `min(n, len(acc))` bytes (20_memory.md R41, 00_scope.md R11). -/
def accKeepSuffix (acc : List Byte) (n : Nat) : List Byte := acc.drop (acc.length - n)

/-- `AccWindow(i)`, which requires `i + 16 <= len(acc)` (20_memory.md R41). -/
def accWindow (acc : List Byte) (i : Nat) : Except Fault Window :=
  match Window.ofBytes ((acc.drop i).take 16) with
  | some w => .ok w
  | none => .error .accRequirement

/-! ### The marker scan (41_frame_synchronizer.md R103) -/

/-- Whether `AccRead(i) = 0xDE and AccRead(i+1) = 0xAD` (41_frame_synchronizer.md R103). -/
def markerAt (acc : List Byte) (i : Nat) : Bool :=
  decide (accRead acc i = .ok hdr0) && decide (accRead acc (i + 1) = .ok hdr1)

/-- `Scan(acc)`: the least `i` with `0 <= i <= len(acc) - 2` at which a marker stands (41_frame_synchronizer.md R103). -/
def scan (acc : List Byte) : Option Nat := (List.range (acc.length - 1)).find? (markerAt acc)

/-! ### Fault entry and exit, sample and reject paths -/

/-- Fault entry (60_exceptions.md R153): `fault` is set, and acc, seq_next and rej_count keep the values they had just
before the faulting candidate's verdict. -/
def enterFault (r : Regs) : Regs := { r with fault := .seqExhausted }

/-- The RESET of the tuple (70_reset_and_hazards.md R170), the only exit from the fault state (60_exceptions.md R155). -/
def resetRegs (c : Config) : Regs := Regs.reset c

/-- `AcceptSample(A, B, C, D)` (42_outputs_and_sequencing.md R130): the event with the index before the increment, or
nothing where no index is left (R131). -/
def acceptSample (c : Config) (r : Regs) (a b cc d : Int) : Option (Regs × Sample) :=
  if r.seqNext = 2 ^ c.seqWidth then none
  else some ({ r with seqNext := r.seqNext + 1 }, { seq := r.seqNext, a := a, b := b, c := cc, d := d })

/-- `CountReject()` (42_outputs_and_sequencing.md R133). -/
def countReject (c : Config) (r : Regs) : Regs := { r with rejCount := (r.rejCount + 1) % 2 ^ c.rejWidth }

/-! ### One INGEST -/

/-- How step 2d ends for one candidate (41_frame_synchronizer.md R106). -/
inductive Extracted where
  /-- Accepted: the event is emitted and the window dropped (R107). -/
  | emitted (r : Regs) (e : Sample)
  /-- Rejected: counted and the window dropped (R108). -/
  | dropped (r : Regs)
  /-- Accepted with no index left: the fault state is entered (60_exceptions.md R153). -/
  | faulted (r : Regs)
  deriving DecidableEq, Repr

/-- `AccDrop(n)` on the tuple. -/
def dropAcc (r : Regs) (n : Nat) : Except Fault Regs :=
  match accDrop r.acc n with
  | .ok acc => .ok { r with acc := acc }
  | .error f => .error f

/-- Step 2d, EXTRACT, of the candidate at `i` (41_frame_synchronizer.md R106). -/
def extract (c : Config) (r : Regs) (i : Nat) : Except Fault Extracted :=
  match accWindow r.acc i with
  | .error f => .error f
  | .ok w =>
    match decodeWindow w with
    | .accepted a b cc d =>
      match acceptSample c r a b cc d with
      | none => .ok (.faulted (enterFault r))
      | some (r', e) =>
        match dropAcc r' (i + 16) with
        | .ok r'' => .ok (.emitted r'' e)
        | .error f => .error f
    | .rejected =>
      match dropAcc (countReject c r) (i + 16) with
      | .ok r'' => .ok (.dropped r'')
      | .error f => .error f

/-- Step 2, the loop, and step 3 (41_frame_synchronizer.md R103 to R110), with the passes it may still make: the events
it emits, in order, and the tuple it leaves. -/
def ingestLoop (c : Config) : Nat → Regs → Except Fault (Regs × List Sample)
  | 0, _ => .error .workBound
  | fuel + 1, r =>
    match scan r.acc with
    | none => .ok ({ r with acc := accKeepSuffix r.acc 16 }, [])
    | some i =>
      if r.acc.length < i + 16 then .ok (r, [])
      else
        match extract c r i with
        | .error f => .error f
        | .ok (.faulted r') => .ok (r', [])
        | .ok (.dropped r') => ingestLoop c fuel r'
        | .ok (.emitted r' e) =>
          match ingestLoop c fuel r' with
          | .error f => .error f
          | .ok (r'', es) => .ok (r'', e :: es)

/-- Steps 1 to 3 on the tuple (41_frame_synchronizer.md R102 to R110). The loop makes at most `floor(L / 16)` extractions,
`L` being the length after step 1 (R112), and one last pass. -/
def ingestRegs (c : Config) (r : Regs) (chunk : List Byte) : Except Fault (Regs × List Sample) :=
  let r' := { r with acc := accAppend r.acc chunk }
  ingestLoop c (r'.acc.length / 16 + 1) r'

/-! ### Operations on the machine -/

/-- What an operation that hands out nothing leaves: the state unchanged, events `[]`. -/
def quiet (s : State) : State := { s with out := {} }

/-- The state an INGEST leaves: the tuple and the events of this operation (00_scope.md R14). -/
def deliver (s : State) (r : Regs) (events : List Sample) : State :=
  { s with block := .live r, out := { events := events } }

/-- Every operation is refused as BAD_CONFIG under a configuration that is not well formed (00_scope.md R9). -/
def guarded (s : State) (k : Host.Outcome State Fault Refusal) : Host.Outcome State Fault Refusal :=
  if s.cfg.wf then k else .refused .badConfig

/-- INGEST of a chunk (41_frame_synchronizer.md R111), its preconditions in the order of R101: BAD_CONFIG before any
operation (00_scope.md R9), PRE_RESET, CHUNK_TOO_LONG, then the drop in the fault state (60_exceptions.md R154). -/
def ingestChunk (chunk : List Byte) (s : State) : Host.Outcome State Fault Refusal :=
  guarded s <|
    match s.block with
    | .unreset => .refused .preReset
    | .live r =>
      if s.cfg.chunkMax < chunk.length then .refused .chunkTooLong
      else if r.fault ≠ .none then .next (quiet s)
      else
        match ingestRegs s.cfg r chunk with
        | .error f => .fault f
        | .ok (r', events) => .next (deliver s r' events)

/-- What becomes of an input that is no operation: always a refusal, by name. An `in_count` over CHUNK_MAX is an INGEST
whose chunk is too long, so PRE_RESET comes before it (60_exceptions.md R157). -/
def refuseInput (e : Reject) (s : State) : Host.Outcome State Fault Refusal :=
  match e with
  | .countTooLong _ =>
    match s.block with
    | .unreset => .refused .preReset
    | .live _ => .refused .chunkTooLong
  | .notPortWord => .refused .notPortWord
  | .windowLength => .refused .windowLength

end Sys2Proof.Machine
end

