-- ==== Sys2Proof/Machine/Codec.lean ====
section
/-! DEFINITION. The meanings of the packet codec's rows on their own: the two verdicts of `DECODE` and the reference
`ENCODE`. They read no state and write none of the block's (40_packet_codec.md R80, R89); nothing is counted
(42_outputs_and_sequencing.md R133). -/

namespace Sys2Proof.Machine

/-- `DECODE.ACCEPT` of a window with `valid(f)` (40_packet_codec.md R82). -/
def execDecodeAccept (f : Window) (s : State) : Host.Outcome State Fault Refusal :=
  guarded s <|
    if f.valid then .next { s with out := { verdict := some (decodeWindow f) } } else .refused .windowNotOfRow

/-- `DECODE.REJECT` of a window with `not valid(f)` (40_packet_codec.md R83). -/
def execDecodeReject (f : Window) (s : State) : Host.Outcome State Fault Refusal :=
  guarded s <|
    if f.valid then .refused .windowNotOfRow else .next { s with out := { verdict := some (decodeWindow f) } }

/-- `ENCODE(A, B, C, D)`, the reference function (40_packet_codec.md R89). -/
def execEncode (a b c d : Int) (s : State) : Host.Outcome State Fault Refusal :=
  guarded s (.next { s with out := { frame := some (encodeFrame a b c d) } })

end Sys2Proof.Machine
end

