-- ==== Sys2Proof/Machine/Restart.lean ====
section
/-! DEFINITION. The meaning of RESET. -/

namespace Sys2Proof.Machine

/-- `RESET` (70_reset_and_hazards.md R170): accepted in every state, all four state elements written, no event. -/
def execReset (s : State) : Host.Outcome State Fault Refusal :=
  guarded s (.next { s with block := .live (resetRegs s.cfg), out := {} })

end Sys2Proof.Machine
end

