-- ==== Sys2Proof/Machine/Synchronizer.lean ====
section
/-! DEFINITION. The meanings of the port's operations that feed the frame synchronizer: INGEST and IDLE. -/

namespace Sys2Proof.Machine

/-- `INGEST(c)` (41_frame_synchronizer.md R111). -/
def execIngest (chunk : List Byte) (s : State) : Host.Outcome State Fault Refusal := ingestChunk chunk s

/-- `IDLE`, which is `INGEST([])` (41_frame_synchronizer.md R117). -/
def execIdle (s : State) : Host.Outcome State Fault Refusal := ingestChunk [] s

end Sys2Proof.Machine
end

