-- ==== Sys2Proof/Machine/Dispatch.lean ====
section
/-! DEFINITION. The meaning of each operation, one arm per constructor of `Instr`. -/

namespace Sys2Proof.Machine

def exec (i : Instr) (s : State) : Host.Outcome State Fault Refusal :=
  match i with
  | .reset => Sys2Proof.Machine.execReset s
  | .ingest chunk => Sys2Proof.Machine.execIngest chunk s
  | .idle => Sys2Proof.Machine.execIdle s
  | .decodeAccept f => Sys2Proof.Machine.execDecodeAccept f s
  | .decodeReject f => Sys2Proof.Machine.execDecodeReject f s
  | .encode a b c d => Sys2Proof.Machine.execEncode a b c d s

end Sys2Proof.Machine
end

