-- ==== Sys2Proof/Machine/Step.lean ====
section
/-! DEFINITION. One step of the machine: the next operation the host presents, decoded and executed (20_memory.md R47,
R50). -/

namespace Sys2Proof.Machine

/-- One step. A configuration that is not well formed is refused before anything (00_scope.md R9). Where nothing is
presented the block's state stays as it is (60_exceptions.md R164). Otherwise the next input is taken and its operation
executed. -/
def step (s : State) : Host.Outcome State Fault Refusal :=
  guarded s <|
    match s.inputs with
    | [] => .next (quiet s)
    | x :: rest =>
      match decode s.cfg x with
      | .ok i => exec i { s with inputs := rest }
      | .error e => refuseInput e { s with inputs := rest }

/-- The state in which the table's word `w` is the next thing presented (log entry 2); what was pending stays behind it. -/
def State.withFetchWord (s : State) (nbits w : Nat) : State :=
  { s with inputs := tableInput nbits w :: s.inputs }

end Sys2Proof.Machine
end

