-- ==== Sys2Proof/Machine/Flags.lean ====
section
/-! DEFINITION. The frame core has no flags (10_state.md R28). What stands here is what the host can read of its state:
the four read-only status outputs (10_state.md R29, 42_outputs_and_sequencing.md R136). -/

namespace Sys2Proof.Machine

/-- The status outputs of a block built with `c` (10_state.md R29). -/
structure Status (c : Config) where
  seqNextO : BitVec c.seqWidth
  seqExhaustedO : BitVec 1
  rejCountO : BitVec c.rejWidth
  faultO : BitVec 1
  deriving DecidableEq, Repr

/-- The code of a fault state (10_state.md R25, 60_exceptions.md R151). -/
def faultCode : FaultCode → BitVec 1
  | .none => 0
  | .seqExhausted => 1

/-- The status outputs of the tuple (10_state.md R23, R24, R25, R29); `acc` is not shown. -/
def statusOf (c : Config) (r : Regs) : Status c :=
  { seqNextO := BitVec.ofNat c.seqWidth (r.seqNext % 2 ^ c.seqWidth)
    seqExhaustedO := BitVec.ofBool (decide (r.seqNext = 2 ^ c.seqWidth))
    rejCountO := BitVec.ofNat c.rejWidth r.rejCount
    faultO := faultCode r.fault }

/-- Reading the status outputs: no effect, and refused where they have no value (70_reset_and_hazards.md R171). -/
def readStatus (s : State) : Except Refusal (Status s.cfg) :=
  if s.cfg.wf then
    match s.block with
    | .unreset => .error .preReset
    | .live r => .ok (statusOf s.cfg r)
  else .error .badConfig

end Sys2Proof.Machine
end

