-- ==== Sys2Proof/Safety.lean ====
section
/-! DEFINITION. The terms in which claims speak of the frame core: what a marker is, the pseudocode of INGEST as a
relation (41_frame_synchronizer.md R111), the invariant every step keeps (R118, 10_state.md R20), and the feeding of a
stream in chunks (R120). None of it is used by the machine. -/

namespace Sys2Proof.Machine

/-! ### Markers -/

/-- The pair DE AD stands at `i` (41_frame_synchronizer.md R103). -/
def MarkerAt (acc : List Byte) (i : Nat) : Prop := acc[i]? = some 0xDE ∧ acc[i + 1]? = some 0xAD

/-- `i` is the first position at which a marker stands: "always the earliest occurrence" (41_frame_synchronizer.md R103). -/
def EarliestMarker (acc : List Byte) (i : Nat) : Prop := MarkerAt acc i ∧ ∀ j, j < i → ¬ MarkerAt acc j

/-- No marker stands anywhere (41_frame_synchronizer.md R104). -/
def NoMarker (acc : List Byte) : Prop := ∀ i, ¬ MarkerAt acc i

/-- The last 16 bytes, all of them where there are fewer: `suffix(acc, 16)` (00_scope.md R11). -/
def last16 (acc : List Byte) : List Byte := acc.drop (acc.length - 16)

/-! ### The pseudocode of INGEST as a relation -/

/-- `Sample(q, A, B, C, D)` with the four channel values of a window (42_outputs_and_sequencing.md R130, 40_packet_codec.md
R82). -/
def sampleOf (q : Nat) (w : Window) : Sample :=
  { seq := q, a := fieldValue w.f2 w.f3 w.f4, b := fieldValue w.f5 w.f6 w.f7, c := fieldValue w.f8 w.f9 w.f10,
    d := fieldValue w.f11 w.f12 w.f13 }

/-- `IngestRun c r es r'`: from `r`, the chunk already appended, the loop of 41_frame_synchronizer.md R111 emits `es` in
that order and leaves `r'`. -/
inductive IngestRun (c : Config) : Regs → List Sample → Regs → Prop where
  /-- Steps 2b and 3 (R104, R110). -/
  | noMarker {r : Regs} (hm : NoMarker r.acc) : IngestRun c r [] { r with acc := last16 r.acc }
  /-- Step 2c (R105). -/
  | hold {r : Regs} {i : Nat} (hm : EarliestMarker r.acc i) (hl : r.acc.length < i + 16) : IngestRun c r [] r
  /-- Step 2d, accepted, an index being left (R106, 42_outputs_and_sequencing.md R130), and step 2e (R109). -/
  | accept {r r' : Regs} {pre rest : List Byte} {w : Window} {es : List Sample}
      (ha : r.acc = pre ++ w.bytes ++ rest) (hm : EarliestMarker r.acc pre.length) (hv : w.valid = true)
      (hs : r.seqNext ≠ 2 ^ c.seqWidth)
      (hr : IngestRun c { r with acc := rest, seqNext := r.seqNext + 1 } es r') :
      IngestRun c r (sampleOf r.seqNext w :: es) r'
  /-- Step 2d, rejected (R106, 42_outputs_and_sequencing.md R133), and step 2e (R109). -/
  | reject {r r' : Regs} {pre rest : List Byte} {w : Window} {es : List Sample}
      (ha : r.acc = pre ++ w.bytes ++ rest) (hm : EarliestMarker r.acc pre.length) (hv : w.valid = false)
      (hr : IngestRun c { r with acc := rest, rejCount := (r.rejCount + 1) % 2 ^ c.rejWidth } es r') :
      IngestRun c r es r'
  /-- Step 2d, accepted with no index left (42_outputs_and_sequencing.md R131, 60_exceptions.md R153). -/
  | exhausted {r : Regs} {pre rest : List Byte} {w : Window}
      (ha : r.acc = pre ++ w.bytes ++ rest) (hm : EarliestMarker r.acc pre.length) (hv : w.valid = true)
      (hs : r.seqNext = 2 ^ c.seqWidth) : IngestRun c r [] { r with fault := .seqExhausted }

/-! ### The invariant -/

/-- The two forms of the accumulator between operations, (a) and (b) of 41_frame_synchronizer.md R118. -/
def AccForm (c : Config) (acc : List Byte) : Prop :=
  (NoMarker acc ∧ acc.length ≤ 16) ∨
    ∃ i, EarliestMarker acc i ∧ acc.length ≤ i + 15 ∧ i ≤ c.chunkMax + 14

/-- A channel value is in [-524288, 524287] (40_packet_codec.md R80). -/
def ChannelRange (v : Int) : Prop := -524288 ≤ v ∧ v ≤ 524287

/-- What holds of the tuple between operations: the ranges of 10_state.md R20, R23 and R24, the accumulator's form
(41_frame_synchronizer.md R118), and in the fault state the bound of step 1 and `seq_next = 2^SEQ_WIDTH` (60_exceptions.md
R153). -/
def Regs.Inv (c : Config) (r : Regs) : Prop :=
  c.seqInit ≤ r.seqNext ∧ r.seqNext ≤ 2 ^ c.seqWidth ∧ r.rejCount < 2 ^ c.rejWidth ∧
    (r.fault = .none → AccForm c r.acc) ∧
    (r.fault = .seqExhausted → r.seqNext = 2 ^ c.seqWidth ∧ r.acc.length ≤ 2 * c.chunkMax + 29)

/-- What holds of an event handed out: an index the event format holds (30_encoding.md R70) and values in range. -/
def Sample.Inv (c : Config) (e : Sample) : Prop :=
  e.seq < 2 ^ c.seqWidth ∧ ChannelRange e.a ∧ ChannelRange e.b ∧ ChannelRange e.c ∧ ChannelRange e.d

/-- The invariant of the machine: a well-formed configuration, the tuple's invariant where there is a tuple, and events
that fit the output. -/
def State.Inv (s : State) : Prop :=
  s.cfg.wf = true ∧ (∀ r, s.block = .live r → r.Inv s.cfg) ∧ ∀ e ∈ s.out.events, e.Inv s.cfg

/-! ### Feeding a stream -/

/-- The host ingests the chunks one after another and takes the events of each (42_outputs_and_sequencing.md R137): the
state after the last one and all the events in order, or nothing where an operation has no next state. -/
def feed : State → List (List Byte) → Option (State × List Sample)
  | s, [] => some (s, [])
  | s, chunk :: chunks =>
    match exec (.ingest chunk) s with
    | .next t =>
      match feed t chunks with
      | some (u, es) => some (u, t.out.events ++ es)
      | none => none
    | _ => none

/-- The candidates of a stream, with the bytes it may still use: each is the earliest marker at or after the end of the
previous candidate, with the 15 bytes that follow it (41_frame_synchronizer.md R122). -/
def candidates : Nat → List Byte → List Window
  | 0, _ => []
  | n + 1, bytes =>
    match scan bytes with
    | none => []
    | some i =>
      match Window.ofBytes ((bytes.drop i).take 16) with
      | none => []
      | some w => w :: candidates n (bytes.drop (i + 16))

/-- The events of accepted candidates, numbered from `q` in stream order (42_outputs_and_sequencing.md R130, R134). -/
def numbered : Nat → List Window → List Sample
  | _, [] => []
  | q, w :: ws => sampleOf q w :: numbered (q + 1) ws

end Sys2Proof.Machine
end

