-- ==== Sys2Proof/WellFormed.lean ====
section
/-! DEFINITION. Which terms of `Instr` are operations of a block with a given configuration: the operand conditions of
30_encoding.md R72, 40_packet_codec.md R82 and R83, and 41_frame_synchronizer.md R111. -/

namespace Sys2Proof

/-- An operation with operands its row of the table admits. INGEST of the empty chunk is the row IDLE (30_encoding.md
R68), and a chunk is at most CHUNK_MAX bytes (41_frame_synchronizer.md R111). -/
def Instr.wf (c : Config) : Instr → Bool
  | .reset => true
  | .ingest chunk => decide (chunk ≠ []) && decide (chunk.length ≤ c.chunkMax)
  | .idle => true
  | .decodeAccept f => f.valid
  | .decodeReject f => !f.valid
  | .encode _ _ _ _ => true

end Sys2Proof
end

