-- ==== Sys2Proof/Certificates/Slice0/Obligations.lean ====
section
/-! DEFINITION. The statements about the frame core that its provers are asked to settle, file by file of spec/. A
statement holds for every well-formed configuration unless it names this hardware's. What an operation hands out stands in
the record `out` of the next state, the fault state is a next state, and a window or four operands can be an input of their
own beside the port: that is the model's form (log entries 3, 4 and 14). A
statement that formalises a rule speaks of the events (or of the verdict, or of the frame) in that record and leaves the
record's other fields open; the derived statements CodecOperationsFrame, IngestFrame and ResetFrame say that those are empty. -/

open Sys2Proof Sys2Proof.Machine

/-! ### Parameters (00_scope.md) -/

/-- 00_scope.md R8: the constraints of the six parameters, and the values this hardware takes. -/
def Obligations.ParametersConstrainedAndTaken : Prop :=
  (∀ c : Config, c.wf = true ↔
    1 ≤ c.chunkMax ∧ c.accCap ≥ 2 * c.chunkMax + 29 ∧ 20 ≤ c.outWidth ∧ 1 ≤ c.seqWidth ∧
      (0 ≤ c.seqInit ∧ c.seqInit < 2 ^ c.seqWidth) ∧ 1 ≤ c.rejWidth) ∧
  Config.hardware.chunkMax = 1 ∧ Config.hardware.accCap = 31 ∧ Config.hardware.outWidth = 32 ∧
    Config.hardware.seqWidth = 32 ∧ Config.hardware.seqInit = 0 ∧ Config.hardware.rejWidth = 32

/-- 00_scope.md, the sentence "A model given a configuration that breaks one refuses it as `BAD_CONFIG` before any
operation", an inference the spec marks as its own in R9: every operation of the block is refused. That the codec's
operations and a step with nothing presented are refused as well is the model's reading (DEDUCED, log entry 16). -/
def Obligations.BadConfigurationRefused : Prop :=
  ∀ (i : Instr) (s : State), s.cfg.wf = false →
    exec i s = .refused .badConfig ∧ step s = .refused .badConfig

/-! ### Encodings (30_encoding.md) -/

/-- 30_encoding.md R68: with CHUNK_MAX = 1 every 10-bit port word selects the operation of the table; `rst` has priority
and the byte of a RESET is discarded; and IDLE is INGEST of the empty chunk. -/
def Obligations.BytePortWordSelectsOperation : Prop :=
  (∀ w : BitVec 10,
    decode Config.hardware (.port w.toNat) =
      .ok (if w.getLsbD 9 then .reset
        else if w.getLsbD 8 then .ingest [w.extractLsb' 0 8]
        else .idle)) ∧
  ∀ s : State, exec .idle s = exec (.ingest []) s

/-- 30_encoding.md, "The input port": the word for any CHUNK_MAX, written out with `k = ceil(log2(CHUNK_MAX+1))`. The place
of lane `j` at bits `8j+7:8j` is the model's reading (DEDUCED, log entry 8), so this is a derived statement. Lanes from
`in_count` on are don't-care. -/
def Obligations.WidePortWordSelectsOperation : Prop :=
  ∀ (c : Config) (rst : Bool) (n : Nat) (inBytes : List Byte), c.wf = true → inBytes.length = c.chunkMax →
    n < 2 ^ Nat.clog 2 (c.chunkMax + 1) →
    decode c (.port (rst.toNat * 2 ^ (Nat.clog 2 (c.chunkMax + 1) + 8 * c.chunkMax) + n * 2 ^ (8 * c.chunkMax) +
        inBytes.foldr (fun b acc => b.toNat + 256 * acc) 0)) =
      if rst then .ok .reset
      else if c.chunkMax < n then .error (.countTooLong n)
      else if n = 0 then .ok .idle
      else .ok (.ingest (inBytes.take n))

/-- 30_encoding.md, "The input port" (the sentence on `in_count > CHUNK_MAX`), with the order that 41_frame_synchronizer.md,
"The algorithm's steps" (the preconditions) and 60_exceptions.md, "Fault entry, the fault state and exit" (priority) give: a
step given such a word is refused as PRE_RESET in `Unreset` and as CHUNK_TOO_LONG otherwise. -/
def Obligations.CountOverMaximumRefused : Prop :=
  ∀ (s : State) (x : Input) (rest : List Input) (n : Nat), s.cfg.wf = true → s.inputs = x :: rest →
    decode s.cfg x = .error (.countTooLong n) →
    (s.block = .unreset → step s = .refused .preReset) ∧
      (∀ r, s.block = .live r → step s = .refused .chunkTooLong)

/-- 30_encoding.md R63: the 24-bit field is `b0<<16 | b1<<8 | b2`, and the four fields are the named bits of the 128-bit
view. -/
def Obligations.ChannelFieldAssembly : Prop :=
  (∀ b0 b1 b2 : Byte,
    (rawField b0 b1 b2).toNat = (b0.toNat <<< 16) ||| (b1.toNat <<< 8) ||| b2.toNat) ∧
  ∀ f : Window,
    f.view.extractLsb' 88 24 = rawField f.f2 f.f3 f.f4 ∧ f.view.extractLsb' 64 24 = rawField f.f5 f.f6 f.f7 ∧
      f.view.extractLsb' 40 24 = rawField f.f8 f.f9 f.f10 ∧ f.view.extractLsb' 16 24 = rawField f.f11 f.f12 f.f13

/-- 30_encoding.md, "The frame" (the 128-bit view, which the spec derives), with the model's reading of the opcode table's
words (DESIGN CHOICE, log entry 18): a 128-bit table word is the window whose view it is, byte 0 the most significant, the
header and the trailer its highest and lowest 16 bits. -/
def Obligations.TableWordIsTheWindowsView : Prop :=
  ∀ w : BitVec 128, ∃ f : Window, tableInput 128 w.toNat = .window f.bytes ∧ f.view = w ∧
    f.f0 = w.extractLsb' 120 8 ∧ f.f15 = w.extractLsb' 0 8 ∧
    (f.valid = true ↔ w.extractLsb' 112 16 = 0xDEAD#16 ∧ w.extractLsb' 0 16 = 0xBEEF#16)

/-- 30_encoding.md R66: a window whose header is not DE AD or whose trailer is not BE EF is Rejected, every other one is
Accepted, and the decoder selects the row accordingly: it is total on all windows. -/
def Obligations.EveryWindowHasOneVerdict : Prop :=
  ∀ (c : Config) (f : Window),
    (¬ (f.f0 = 0xDE ∧ f.f1 = 0xAD) ∨ ¬ (f.f14 = 0xBE ∧ f.f15 = 0xEF) →
      decodeWindow f = .rejected ∧ decode c (.window f.bytes) = .ok (.decodeReject f)) ∧
    (f.f0 = 0xDE ∧ f.f1 = 0xAD ∧ f.f14 = 0xBE ∧ f.f15 = 0xEF →
      (∃ a b cc d, decodeWindow f = .accepted a b cc d) ∧ decode c (.window f.bytes) = .ok (.decodeAccept f))

/-- 30_encoding.md, "Opcode map": words written out from the encodings read as the operations of their rows. That 16 bits
are a port word and 128 bits a window is the model's choice (DESIGN CHOICE, log entry 18), so every clause rests on it. -/
def Obligations.TableWordsReadAsTheirRows : Prop :=
  decodeTableWord 16 0x200 = some .reset ∧ decodeTableWord 16 0x3DE = some .reset ∧
    decodeTableWord 16 0x1DE = some (.ingest [0xDE]) ∧ decodeTableWord 16 0x000 = some .idle ∧
    decodeTableWord 16 0x0FF = some .idle ∧
    decodeTableWord 128 0xDEAD000001000002000003000004BEEF =
      some (.decodeAccept ⟨0xDE, 0xAD, 0, 0, 1, 0, 0, 2, 0, 0, 3, 0, 0, 4, 0xBE, 0xEF⟩) ∧
    decodeTableWord 128 0xDEAD000001000002000003000004BEEE =
      some (.decodeReject ⟨0xDE, 0xAD, 0, 0, 1, 0, 0, 2, 0, 0, 3, 0, 0, 4, 0xBE, 0xEE⟩)

/-- 30_encoding.md, "The frame", "The input port" and "Opcode map": for every well-formed operation, decoding what the
encoder writes gives the operation back, with every operand at every value it admits. The lanes of a wide port word are the
model's reading (DEDUCED, log entry 8), and the input that carries ENCODE's operands is its form (log entries 14 and 15). -/
def Obligations.DecodeUndoesEncode : Prop :=
  ∀ (c : Config) (i : Instr), c.wf = true → i.wf c = true → decode c (encode c i) = .ok i

/-- 30_encoding.md, "The input port" (the event format), with the model's reading of it (log entry 12): the fields of an
event's bits, the index in the highest place and channel D in the lowest, are the index and the channel values. -/
def Obligations.SampleEventFields : Prop :=
  ∀ (c : Config) (e : Sample), c.wf = true → e.Inv c →
    ((e.word c).extractLsb' (4 * c.outWidth) c.seqWidth).toNat = e.seq ∧
      ((e.word c).extractLsb' (3 * c.outWidth) c.outWidth).toInt = e.a ∧
      ((e.word c).extractLsb' (2 * c.outWidth) c.outWidth).toInt = e.b ∧
      ((e.word c).extractLsb' c.outWidth c.outWidth).toInt = e.c ∧
      ((e.word c).extractLsb' 0 c.outWidth).toInt = e.d

/-! ### Packet codec (40_packet_codec.md) -/

/-- 40_packet_codec.md R81: `valid(f)` looks at the two sync words and nothing else, and DECODE accepts exactly the valid
windows. -/
def Obligations.ValidChecksBothSyncWords : Prop :=
  ∀ f : Window,
    (f.valid = true ↔ f.f0 = 0xDE ∧ f.f1 = 0xAD ∧ f.f14 = 0xBE ∧ f.f15 = 0xEF) ∧
      (decodeWindow f = .rejected ↔ f.valid = false)

/-- 40_packet_codec.md R82: a valid window selects DECODE.ACCEPT, which completes, hands out the four field values, and
writes no state of the block; the verdict ignores the four don't-care nibbles; with the rule's example. -/
def Obligations.DecodeAcceptCompletes : Prop :=
  (∀ (s : State) (f : Window), s.cfg.wf = true →
    f.f0 = 0xDE ∧ f.f1 = 0xAD ∧ f.f14 = 0xBE ∧ f.f15 = 0xEF →
    decode s.cfg (.window f.bytes) = .ok (.decodeAccept f) ∧
    ∃ o : Output, exec (.decodeAccept f) s = .next { s with out := o } ∧ o.events = [] ∧
      o.verdict = some (.accepted (fieldValue f.f2 f.f3 f.f4) (fieldValue f.f5 f.f6 f.f7)
        (fieldValue f.f8 f.f9 f.f10) (fieldValue f.f11 f.f12 f.f13))) ∧
  (∀ f : Window,
    decodeWindow { f with f2 := f.f2 &&& 0x0F, f5 := f.f5 &&& 0x0F, f8 := f.f8 &&& 0x0F, f11 := f.f11 &&& 0x0F } =
      decodeWindow f) ∧
  decodeWindow ⟨0xDE, 0xAD, 0, 0, 1, 0, 0, 2, 0, 0, 3, 0, 0, 4, 0xBE, 0xEF⟩ = .accepted 1 2 3 4

/-- 40_packet_codec.md R83: any other window selects DECODE.REJECT, which completes with the verdict Rejected and writes no
state of the block, so nothing is counted; with the rule's example. -/
def Obligations.DecodeRejectCompletes : Prop :=
  (∀ (s : State) (f : Window), s.cfg.wf = true →
    ¬ (f.f0 = 0xDE ∧ f.f1 = 0xAD ∧ f.f14 = 0xBE ∧ f.f15 = 0xEF) →
    decode s.cfg (.window f.bytes) = .ok (.decodeReject f) ∧
    ∃ o : Output, exec (.decodeReject f) s = .next { s with out := o } ∧ o.events = [] ∧
      o.verdict = some .rejected) ∧
  decodeWindow ⟨0xDE, 0xAD, 0, 0, 1, 0, 0, 2, 0, 0, 3, 0, 0, 4, 0xBE, 0xEE⟩ = .rejected

/-- 40_packet_codec.md R84: the shift identity in integer arithmetic, and its closed form on the low 20 bits. -/
def Obligations.FieldValueIsLowTwentyBitsSigned : Prop :=
  ∀ b0 b1 b2 : Byte,
    let raw : Int := b0.toNat * 65536 + b1.toNat * 256 + b2.toNat
    let t : Int := (raw * 2 ^ 12) % 2 ^ 32
    let u : Int := if 2 ^ 31 ≤ t then t - 2 ^ 32 else t
    fieldValue b0 b1 b2 = u / 2 ^ 12 ∧
      fieldValue b0 b1 b2 = if raw % 2 ^ 20 < 2 ^ 19 then raw % 2 ^ 20 else raw % 2 ^ 20 - 2 ^ 20

/-- 40_packet_codec.md R85: the output word is the sign extension of `raw[19:0]` to OUT_WIDTH bits, and its
two's-complement reading is the value; with OUT_WIDTH = 32 it is the container shifted right arithmetically within 32 bits,
and the three values of the rule are the words it gives. -/
def Obligations.OutputWordIsSignExtension : Prop :=
  (∀ (w : Nat) (b0 b1 b2 : Byte), 20 ≤ w →
    outWord w (fieldValue b0 b1 b2) = ((rawField b0 b1 b2).extractLsb' 0 20).signExtend w ∧
      (outWord w (fieldValue b0 b1 b2)).toInt = fieldValue b0 b1 b2) ∧
  (∀ b0 b1 b2 : Byte,
    outWord 32 (fieldValue b0 b1 b2) = ((rawField b0 b1 b2).setWidth 32 <<< 12).sshiftRight 12) ∧
  outWord 32 (-1) = 0xFFFFFFFF ∧ outWord 32 (-524288) = 0xFFF80000 ∧ outWord 32 524287 = 0x0007FFFF

/-- 40_packet_codec.md, the range and don't-care law, an inference the spec marks as its own: a field value is in range,
ignores the top nibble, and every value in range comes from exactly one low 20-bit pattern, so from sixteen fields. -/
def Obligations.FieldRangeAndDontCareNibble : Prop :=
  (∀ b0 b1 b2 : Byte, ChannelRange (fieldValue b0 b1 b2) ∧
    fieldValue b0 b1 b2 = fieldValue (b0 &&& 0x0F) b1 b2) ∧
  ∀ v : Int, ChannelRange v → ∃ lo b1 b2 : Byte, lo &&& 0x0F = lo ∧
    ∀ c0 c1 c2 : Byte, fieldValue c0 c1 c2 = v ↔ c0 &&& 0x0F = lo ∧ c1 = b1 ∧ c2 = b2

/-- 40_packet_codec.md R89: ENCODE completes from any state, hands out the frame whose fields are the operands modulo 2^20
split into three bytes, and writes no state of the block; with the rule's example. -/
def Obligations.EncodeWritesMaskedFields : Prop :=
  (∀ (s : State) (a b c d : Int), s.cfg.wf = true →
    ∃ (f : Window) (o : Output),
      exec (.encode a b c d) s = .next { s with out := o } ∧ o.frame = some f ∧ o.events = [] ∧
      f.f0 = 0xDE ∧ f.f1 = 0xAD ∧ f.f14 = 0xBE ∧ f.f15 = 0xEF ∧
      ((f.f2.toNat : Int) = a % 2 ^ 20 / 65536 ∧ (f.f3.toNat : Int) = a % 2 ^ 20 / 256 % 256 ∧
        (f.f4.toNat : Int) = a % 2 ^ 20 % 256) ∧
      ((f.f5.toNat : Int) = b % 2 ^ 20 / 65536 ∧ (f.f6.toNat : Int) = b % 2 ^ 20 / 256 % 256 ∧
        (f.f7.toNat : Int) = b % 2 ^ 20 % 256) ∧
      ((f.f8.toNat : Int) = c % 2 ^ 20 / 65536 ∧ (f.f9.toNat : Int) = c % 2 ^ 20 / 256 % 256 ∧
        (f.f10.toNat : Int) = c % 2 ^ 20 % 256) ∧
      ((f.f11.toNat : Int) = d % 2 ^ 20 / 65536 ∧ (f.f12.toNat : Int) = d % 2 ^ 20 / 256 % 256 ∧
        (f.f13.toNat : Int) = d % 2 ^ 20 % 256)) ∧
  encodeFrame (-1) 524287 (-524288) 1 =
    ⟨0xDE, 0xAD, 0x0F, 0xFF, 0xFF, 0x07, 0xFF, 0xFF, 0x08, 0x00, 0x00, 0x00, 0x00, 0x01, 0xBE, 0xEF⟩

/-- 40_packet_codec.md, the round-trip law, which the spec derives: in range, DECODE gives back what ENCODE was given. -/
def Obligations.EncodeThenDecodeInRange : Prop :=
  ∀ a b c d : Int, ChannelRange a → ChannelRange b → ChannelRange c → ChannelRange d →
    decodeWindow (encodeFrame a b c d) = .accepted a b c d

/-- 40_packet_codec.md, out-of-range operands, which the spec derives: DECODE of ENCODE gives the values in range that are
congruent to the operands modulo 2^20. -/
def Obligations.EncodeThenDecodeResidues : Prop :=
  ∀ a b c d : Int, ∃ a' b' c' d' : Int,
    decodeWindow (encodeFrame a b c d) = .accepted a' b' c' d' ∧
      (ChannelRange a' ∧ a' % 2 ^ 20 = a % 2 ^ 20) ∧ (ChannelRange b' ∧ b' % 2 ^ 20 = b % 2 ^ 20) ∧
      (ChannelRange c' ∧ c' % 2 ^ 20 = c % 2 ^ 20) ∧ (ChannelRange d' ∧ d' % 2 ^ 20 = d % 2 ^ 20)

/-- 40_packet_codec.md, the converse law, which the spec derives: ENCODE of what DECODE accepted is the window with its four
don't-care nibbles cleared. -/
def Obligations.DecodeThenEncodeClearsNibbles : Prop :=
  ∀ (f : Window) (a b c d : Int), decodeWindow f = .accepted a b c d →
    encodeFrame a b c d =
      { f with f2 := f.f2 &&& 0x0F, f5 := f.f5 &&& 0x0F, f8 := f.f8 &&& 0x0F, f11 := f.f11 &&& 0x0F }

/-- 40_packet_codec.md R87: any length but sixteen is refused, before and after a reset. -/
def Obligations.OtherLengthsRefused : Prop :=
  ∀ (s : State) (bytes : List Byte) (rest : List Input), s.cfg.wf = true → s.inputs = .window bytes :: rest →
    (bytes.length ≠ 16 → step s = .refused .windowLength) ∧
      (bytes.length = 16 → ∃ t, step s = .next t)

/-- 40_packet_codec.md, "DECODE" and "ENCODE", and 10_state.md, "State inventory": the codec's operations leave the whole
block, the configuration and the pending inputs as they were, emit no event, and hand out a verdict or a frame but not both
(the record is the model's form, log entry 3). -/
def Obligations.CodecOperationsFrame : Prop :=
  ∀ (i : Instr) (s t : State),
    ((∃ f, i = .decodeAccept f) ∨ (∃ f, i = .decodeReject f) ∨ ∃ a b c d, i = .encode a b c d) →
    exec i s = .next t →
    t.block = s.block ∧ t.cfg = s.cfg ∧ t.inputs = s.inputs ∧ t.out.events = [] ∧
      ((∃ v, t.out = { verdict := some v }) ∨ ∃ f, t.out = { frame := some f })

/-! ### Frame synchronizer (41_frame_synchronizer.md) -/

/-- 41_frame_synchronizer.md R101: the three preconditions of INGEST, in their order. -/
def Obligations.IngestPreconditionsInOrder : Prop :=
  ∀ (s : State) (chunk : List Byte), s.cfg.wf = true →
    (s.block = .unreset → exec (.ingest chunk) s = .refused .preReset) ∧
      ∀ r, s.block = .live r →
        (s.cfg.chunkMax < chunk.length → exec (.ingest chunk) s = .refused .chunkTooLong) ∧
          (chunk.length ≤ s.cfg.chunkMax → r.fault ≠ .none →
            ∃ o : Output, exec (.ingest chunk) s = .next { s with out := o } ∧ o.events = [])

/-- 41_frame_synchronizer.md R103: the scan gives the least position at which DE AD stands, or nothing where there is none. -/
def Obligations.ScanFindsEarliestMarker : Prop :=
  ∀ acc : List Byte, (∀ i, scan acc = some i ↔ EarliestMarker acc i) ∧ (scan acc = none ↔ NoMarker acc)

/-- 41_frame_synchronizer.md R111: INGEST is refused before a reset and for a chunk that is too long, is dropped in the
fault state, and otherwise completes with the events and the tuple that the pseudocode's loop gives. -/
def Obligations.IngestRunsPseudocode : Prop :=
  ∀ (s : State) (chunk : List Byte), s.cfg.wf = true →
    (s.block = .unreset → exec (.ingest chunk) s = .refused .preReset) ∧
      ∀ r, s.block = .live r →
        (s.cfg.chunkMax < chunk.length → exec (.ingest chunk) s = .refused .chunkTooLong) ∧
          (chunk.length ≤ s.cfg.chunkMax → r.fault ≠ .none →
            ∃ o : Output, exec (.ingest chunk) s = .next { s with out := o } ∧ o.events = []) ∧
          (chunk.length ≤ s.cfg.chunkMax → r.fault = .none →
            ∃ (r' : Regs) (o : Output), IngestRun s.cfg { r with acc := r.acc ++ chunk } o.events r' ∧
              exec (.ingest chunk) s = .next { s with block := .live r', out := o })

/-- 41_frame_synchronizer.md, "The algorithm's steps": the loop's pseudocode has one result. -/
def Obligations.PseudocodeIsDeterministic : Prop :=
  ∀ (c : Config) (r r1 r2 : Regs) (es1 es2 : List Sample),
    IngestRun c r es1 r1 → IngestRun c r es2 r2 → r1 = r2 ∧ es1 = es2

/-- 41_frame_synchronizer.md R110: where no marker stands after the append, INGEST keeps the last 16 bytes, emits nothing
and changes nothing else (first part); and so does every later pass of its loop that finds no marker (second part). -/
def Obligations.NoMarkerTrimsToSixteen : Prop :=
  (∀ (s : State) (r : Regs) (chunk : List Byte), s.cfg.wf = true → s.block = .live r → r.fault = .none →
    chunk.length ≤ s.cfg.chunkMax → NoMarker (r.acc ++ chunk) →
    ∃ (kept : List Byte) (o : Output),
      exec (.ingest chunk) s = .next { s with block := .live { r with acc := kept }, out := o } ∧ o.events = [] ∧
        kept <:+ r.acc ++ chunk ∧ kept.length = min 16 (r.acc ++ chunk).length) ∧
  ∀ (c : Config) (r r' : Regs) (es : List Sample), NoMarker r.acc →
    (IngestRun c r es r' ↔
      es = [] ∧ ∃ kept : List Byte, r' = { r with acc := kept } ∧ kept <:+ r.acc ∧ kept.length = min 16 r.acc.length)

/-- 41_frame_synchronizer.md R105: where the earliest marker has fewer than 16 bytes from it on, INGEST keeps everything,
the bytes in front of the marker as well (first part); and so does every later pass of its loop (second part). -/
def Obligations.IncompleteFrameIsHeld : Prop :=
  (∀ (s : State) (r : Regs) (chunk : List Byte) (i : Nat), s.cfg.wf = true → s.block = .live r → r.fault = .none →
    chunk.length ≤ s.cfg.chunkMax → EarliestMarker (r.acc ++ chunk) i → i + 16 > (r.acc ++ chunk).length →
    ∃ o : Output,
      exec (.ingest chunk) s = .next { s with block := .live { r with acc := r.acc ++ chunk }, out := o } ∧
        o.events = []) ∧
  ∀ (c : Config) (r r' : Regs) (es : List Sample) (i : Nat), EarliestMarker r.acc i → i + 16 > r.acc.length →
    (IngestRun c r es r' ↔ es = [] ∧ r' = r)

/-- 41_frame_synchronizer.md, steps 2d and 2e, with 42_outputs_and_sequencing.md, "Accepted candidates": one whole candidate
with a good trailer and no marker after it. The event carries the index before the increment, up to the last index of all,
and everything up to the candidate's end is dropped, markers inside it too. -/
def Obligations.AcceptedCandidateEmitsSample : Prop :=
  ∀ (s : State) (r : Regs) (chunk pre rest : List Byte) (w : Window), s.cfg.wf = true → s.block = .live r →
    r.fault = .none → chunk.length ≤ s.cfg.chunkMax → r.acc ++ chunk = pre ++ w.bytes ++ rest →
    EarliestMarker (r.acc ++ chunk) pre.length → w.f14 = 0xBE ∧ w.f15 = 0xEF → r.seqNext < 2 ^ s.cfg.seqWidth →
    NoMarker rest →
    exec (.ingest chunk) s =
      .next { s with
        block := .live { r with acc := last16 rest, seqNext := r.seqNext + 1 }
        out := { events := [{ seq := r.seqNext, a := fieldValue w.f2 w.f3 w.f4, b := fieldValue w.f5 w.f6 w.f7,
                              c := fieldValue w.f8 w.f9 w.f10, d := fieldValue w.f11 w.f12 w.f13 }],
                 verdict := none, frame := none } }

/-- 42_outputs_and_sequencing.md R133, with the drop of 41_frame_synchronizer.md, step 2d: one whole candidate with a bad
trailer and no marker after it is counted modulo 2^REJ_WIDTH; no event is emitted, no index is taken (first part); so it is
in every later pass of the loop, which goes on behind the window (second part); and a DECODE outside the synchronizer does
not count. -/
def Obligations.RejectedCandidateIsCounted : Prop :=
  (∀ (s : State) (r : Regs) (chunk pre rest : List Byte) (w : Window), s.cfg.wf = true → s.block = .live r →
    r.fault = .none → chunk.length ≤ s.cfg.chunkMax → r.acc ++ chunk = pre ++ w.bytes ++ rest →
    EarliestMarker (r.acc ++ chunk) pre.length → ¬ (w.f14 = 0xBE ∧ w.f15 = 0xEF) → NoMarker rest →
    ∃ o : Output,
      exec (.ingest chunk) s =
        .next { s with
          block := .live { r with acc := last16 rest, rejCount := (r.rejCount + 1) % 2 ^ s.cfg.rejWidth }
          out := o } ∧
        o.events = []) ∧
  (∀ (c : Config) (r r' : Regs) (es : List Sample) (pre rest : List Byte) (w : Window), r.acc = pre ++ w.bytes ++ rest →
    EarliestMarker r.acc pre.length → ¬ (w.f14 = 0xBE ∧ w.f15 = 0xEF) →
    (IngestRun c r es r' ↔
      IngestRun c { r with acc := rest, rejCount := (r.rejCount + 1) % 2 ^ c.rejWidth } es r')) ∧
  ∀ (s t : State) (f : Window), exec (.decodeReject f) s = .next t → t.block = s.block

/-- 41_frame_synchronizer.md, "Termination and work bound", and 20_memory.md, "Address spaces" (every use of a primitive
meets its requirement), inferences the spec marks as its own: no operation and no step ends in a fault of the model (log
entry 7), from any state. -/
def Obligations.NoOperationFaults : Prop :=
  (∀ (i : Instr) (s : State) (f : Fault), exec i s ≠ .fault f) ∧ ∀ (s : State) (f : Fault), step s ≠ .fault f

/-- 41_frame_synchronizer.md, "Termination and work bound", an inference the spec marks as its own: every event of an INGEST
stands for 16 bytes taken out of the accumulator, so there are at most `floor(L / 16)` of them. -/
def Obligations.EventsAreBounded : Prop :=
  ∀ (s t : State) (r r' : Regs) (chunk : List Byte), s.block = .live r → exec (.ingest chunk) s = .next t →
    t.block = .live r' → r.fault = .none →
    16 * t.out.events.length + r'.acc.length ≤ (r.acc ++ chunk).length ∧
      t.out.events.length ≤ (r.acc ++ chunk).length / 16

/-- 41_frame_synchronizer.md, "The header check cannot fail inside the block", an inference the spec marks as its own. -/
def Obligations.OnlyTheTrailerRejects : Prop :=
  ∀ (acc : List Byte) (i : Nat) (w : Window), scan acc = some i → accWindow acc i = .ok w →
    (decodeWindow w = .rejected ↔ w.f14 ≠ 0xBE ∨ w.f15 ≠ 0xEF)

/-- 41_frame_synchronizer.md, "Trimming loses no marker", an inference the spec marks as its own: whatever arrives later, the
trimmed accumulator has its earliest marker where the untrimmed one has it. -/
def Obligations.TrimLosesNoMarker : Prop :=
  ∀ (acc more : List Byte) (i : Nat), NoMarker acc →
    (EarliestMarker (acc ++ more) i ↔
      ∃ j, EarliestMarker (last16 acc ++ more) j ∧ i = j + (acc.length - (last16 acc).length))

/-- 41_frame_synchronizer.md, `IDLE`: it is INGEST of the empty chunk, and from a state that meets the invariant it completes
and changes nothing (the second part is an inference the spec marks as its own). -/
def Obligations.IdleChangesNothing : Prop :=
  (∀ s : State, exec .idle s = exec (.ingest []) s) ∧
  ∀ (s : State) (r : Regs), s.Inv → s.block = .live r →
    exec .idle s = .next { s with out := { events := [], verdict := none, frame := none } }

/-- 41_frame_synchronizer.md, "Accumulator invariant", with the ranges of 10_state.md and 40_packet_codec.md: every step from
a state that meets the invariant leads to one that does. -/
def Obligations.StepKeepsInvariant : Prop :=
  ∀ s t : State, s.Inv → step s = .next t → t.Inv

/-- 10_state.md, "Reset values", and 41_frame_synchronizer.md, "Accumulator invariant": the state right after reset and the
state at power-up meet the invariant, for every well-formed configuration. -/
def Obligations.ResetMeetsInvariant : Prop :=
  State.reset.Inv ∧
    ∀ (c : Config) (xs : List Input), c.wf = true → (State.resetWith c xs).Inv ∧ (State.powerUp c xs).Inv

/-- 41_frame_synchronizer.md, "Accumulator invariant", and 00_scope.md, "Implementation parameters": between operations and
just after the append the accumulator is within its bounds, and so within the storage. -/
def Obligations.AccumulatorStaysWithinStorage : Prop :=
  ∀ (s : State) (r : Regs) (chunk : List Byte), s.Inv → s.block = .live r → chunk.length ≤ s.cfg.chunkMax →
    r.acc.length ≤ s.cfg.accCap ∧
      (r.fault = .none → r.acc.length ≤ s.cfg.chunkMax + 29 ∧
        (r.acc ++ chunk).length ≤ 2 * s.cfg.chunkMax + 29 ∧ (r.acc ++ chunk).length ≤ s.cfg.accCap)

/-- 41_frame_synchronizer.md, "The byte-serial hardware", an inference the spec marks as its own: with CHUNK_MAX = 1 an
INGEST emits at most one event, and one that moves `seq_next` or `rej_count` leaves the accumulator empty. -/
def Obligations.ByteSerialEmitsAtMostOne : Prop :=
  ∀ (s t : State) (r r' : Regs) (chunk : List Byte), s.Inv → s.cfg.chunkMax = 1 → s.block = .live r →
    exec (.ingest chunk) s = .next t → t.block = .live r' →
    t.out.events.length ≤ 1 ∧
      ((r'.seqNext ≠ r.seqNext ∨ r'.rejCount ≠ r.rejCount) → r'.acc = []) ∧ r'.acc.length ≤ 31 ∧
      (r'.fault = .none → r'.acc.length ≤ 30)

/-- 41_frame_synchronizer.md, "Noise", which the spec derives: a stream with no marker in it, however it is split, yields no
event and no rejection, and the accumulator never exceeds 16 bytes. -/
def Obligations.NoiseYieldsNothing : Prop :=
  ∀ (s : State) (r : Regs) (chunks : List (List Byte)), s.Inv → s.block = .live r → r.fault = .none →
    (∀ chunk ∈ chunks, chunk.length ≤ s.cfg.chunkMax) → NoMarker (r.acc ++ chunks.flatten) →
    ∃ t acc, feed s chunks = some (t, []) ∧ t.block = .live { r with acc := acc } ∧ acc.length ≤ 16

/-- 41_frame_synchronizer.md, "Independence from chunk boundaries", which the spec derives: from the same state two splits of
one stream give the same events in the same order and the same counters. It holds with a fault on the way as well. -/
def Obligations.ChunkBoundariesDoNotMatter : Prop :=
  ∀ (s : State) (r : Regs) (cs ds : List (List Byte)), s.Inv → s.block = .live r →
    (∀ chunk ∈ cs, chunk.length ≤ s.cfg.chunkMax) → (∀ chunk ∈ ds, chunk.length ≤ s.cfg.chunkMax) →
    cs.flatten = ds.flatten →
    ∃ t u es rt ru, feed s cs = some (t, es) ∧ feed s ds = some (u, es) ∧ t.block = .live rt ∧ u.block = .live ru ∧
      rt.seqNext = ru.seqNext ∧ rt.rejCount = ru.rejCount ∧ rt.fault = ru.fault

/-- 41_frame_synchronizer.md, "Stream-order guarantee", with 42_outputs_and_sequencing.md, "Delivery to the host", which the
spec derives: the events of a stream are its accepted candidates, each the earliest marker at or after the end of the one
before it, numbered in stream order; and every rejected candidate is counted. -/
def Obligations.StreamIsDecodedInOrder : Prop :=
  ∀ (s : State) (r : Regs) (chunks : List (List Byte)), s.Inv → s.block = .live r → r.fault = .none →
    (∀ chunk ∈ chunks, chunk.length ≤ s.cfg.chunkMax) →
    let found := candidates ((r.acc ++ chunks.flatten).length) (r.acc ++ chunks.flatten)
    r.seqNext + (found.filter fun w => w.valid).length ≤ 2 ^ s.cfg.seqWidth →
    ∃ t r', feed s chunks = some (t, numbered r.seqNext (found.filter fun w => w.valid)) ∧ t.block = .live r' ∧
      r'.fault = .none ∧ r'.seqNext = r.seqNext + (found.filter fun w => w.valid).length ∧
      r'.rejCount = (r.rejCount + (found.filter fun w => !w.valid).length) % 2 ^ s.cfg.rejWidth

/-! ### Outputs and sequencing (42_outputs_and_sequencing.md) -/

/-- 42_outputs_and_sequencing.md, "Accepted candidates" (the sequence laws, which the spec derives): the indices of an
INGEST's events are consecutive from `seq_next`, and `seq_next` moves by exactly one for each. -/
def Obligations.IndicesAreConsecutive : Prop :=
  ∀ (s t : State) (r : Regs) (chunk : List Byte), s.block = .live r → exec (.ingest chunk) s = .next t →
    ∃ r', t.block = .live r' ∧ r'.seqNext = r.seqNext + t.out.events.length ∧
      t.out.events.map (fun e => e.seq) = List.range' r.seqNext t.out.events.length

/-- 42_outputs_and_sequencing.md, "Accepted candidates" (sequence exhaustion), with 60_exceptions.md, "Fault entry, the fault
state and exit": a candidate accepted with no index left raises the fault and emits nothing, and a rejected one is still
counted, without a fault (first part); every later pass of the loop enters the fault state so (second part). -/
def Obligations.ExhaustedSequenceFaults : Prop :=
  (∀ (s : State) (r : Regs) (chunk pre rest : List Byte) (w : Window), s.cfg.wf = true → s.block = .live r →
    r.fault = .none → chunk.length ≤ s.cfg.chunkMax → r.acc ++ chunk = pre ++ w.bytes ++ rest →
    EarliestMarker (r.acc ++ chunk) pre.length → r.seqNext = 2 ^ s.cfg.seqWidth →
    (w.f14 = 0xBE ∧ w.f15 = 0xEF →
      ∃ o : Output,
        exec (.ingest chunk) s =
          .next { s with block := .live { r with acc := r.acc ++ chunk, fault := .seqExhausted }, out := o } ∧
          o.events = []) ∧
    (¬ (w.f14 = 0xBE ∧ w.f15 = 0xEF) → NoMarker rest →
      ∃ o : Output,
        exec (.ingest chunk) s =
          .next { s with
            block := .live { r with acc := last16 rest, rejCount := (r.rejCount + 1) % 2 ^ s.cfg.rejWidth }
            out := o } ∧
          o.events = [])) ∧
  ∀ (c : Config) (r r' : Regs) (es : List Sample) (pre rest : List Byte) (w : Window), r.acc = pre ++ w.bytes ++ rest →
    EarliestMarker r.acc pre.length → w.f14 = 0xBE ∧ w.f15 = 0xEF → r.seqNext = 2 ^ c.seqWidth →
    (IngestRun c r es r' ↔ es = [] ∧ r' = { r with fault := .seqExhausted })

/-- 10_state.md, "State inventory" and "What the block does not have" (the status outputs), with 42_outputs_and_sequencing.md,
"Delivery to the host": the four outputs of a live block, and none of them shows the accumulator. -/
def Obligations.StatusOutputsShowState : Prop :=
  ∀ (s : State) (r : Regs), s.Inv → s.block = .live r →
    ∃ o : Status s.cfg, readStatus s = .ok o ∧ o.seqNextO.toNat = r.seqNext % 2 ^ s.cfg.seqWidth ∧
      (o.seqExhaustedO = 1 ↔ r.seqNext = 2 ^ s.cfg.seqWidth) ∧ o.rejCountO.toNat = r.rejCount ∧
      (o.faultO = 1 ↔ r.fault = .seqExhausted) ∧
      ∀ acc, readStatus { s with block := .live { r with acc := acc } } = .ok o

/-! ### Faults (60_exceptions.md) -/

/-- 60_exceptions.md, "Fault entry, the fault state and exit": an INGEST that ends in the fault state has emitted every index
that was left, and keeps the faulting candidate undropped at the front of what is left, with nothing after it processed. -/
def Obligations.FaultIsPrecise : Prop :=
  ∀ (s t : State) (r r' : Regs) (chunk : List Byte), s.Inv → s.block = .live r → r.fault = .none →
    exec (.ingest chunk) s = .next t → t.block = .live r' → r'.fault ≠ .none →
    r'.fault = .seqExhausted ∧ r'.seqNext = 2 ^ s.cfg.seqWidth ∧
      r.seqNext + t.out.events.length = 2 ^ s.cfg.seqWidth ∧ r'.acc <:+ r.acc ++ chunk ∧
      ∃ (pre : List Byte) (w : Window) (rest : List Byte), r'.acc = pre ++ w.bytes ++ rest ∧
        EarliestMarker r'.acc pre.length ∧ w.valid = true

/-- 60_exceptions.md R154: in the fault state INGEST and IDLE are dropped: no state changes, no event is emitted, and the
status outputs keep showing the frozen state with `fault_o = 1`. -/
def Obligations.FaultStateDropsInput : Prop :=
  ∀ (s : State) (r : Regs) (chunk : List Byte), s.cfg.wf = true → s.block = .live r → r.fault ≠ .none →
    chunk.length ≤ s.cfg.chunkMax →
    ∃ (o : Output) (status : Status s.cfg), o.events = [] ∧ exec (.ingest chunk) s = .next { s with out := o } ∧
      exec .idle s = .next { s with out := o } ∧
      readStatus s = .ok status ∧ readStatus { s with out := o } = .ok status ∧ status.faultO = 1

/-- 60_exceptions.md R155: only RESET leaves the fault state, and it clears the fault with all other state. -/
def Obligations.OnlyResetLeavesFault : Prop :=
  ∀ (i : Instr) (s t : State) (r : Regs), s.block = .live r → r.fault ≠ .none → exec i s = .next t →
    (i ≠ .reset → t.block = s.block) ∧
      (i = .reset → t.block = .live { acc := [], seqNext := s.cfg.seqInit, rejCount := 0, fault := .none })

/-- 10_state.md, "State inventory" (who writes `fault`, `acc` and the counters): the block is changed by RESET, INGEST and
IDLE alone, the fault is set by INGEST and IDLE alone and with no index left, and outside RESET neither `seq_next` nor the
fault ever goes back. -/
def Obligations.WhoWritesTheBlock : Prop :=
  ∀ (i : Instr) (s t : State), exec i s = .next t →
    (t.block ≠ s.block → i = .reset ∨ i = .idle ∨ ∃ chunk, i = .ingest chunk) ∧
      ∀ r r', s.block = .live r → t.block = .live r' → i ≠ .reset →
        r.seqNext ≤ r'.seqNext ∧ (r.fault ≠ .none → r' = r) ∧
          (r.fault = .none → r'.fault ≠ .none → r'.seqNext = 2 ^ s.cfg.seqWidth)

/-- 60_exceptions.md, "Privilege and platform" (no operation changes the configuration), with 20_memory.md, "Access widths,
atomicity and side effects" and "Ordering" (one operation at a time, in the order presented): a step keeps the configuration
and takes at most the one input it executes. The list of pending inputs is the model's own (DESIGN CHOICE, log entry 2). -/
def Obligations.ConfigurationNeverChanges : Prop :=
  ∀ s t : State, step s = .next t → t.cfg = s.cfg ∧ t.inputs = s.inputs.tail

/-- 41_frame_synchronizer.md, "The whole operation": an INGEST or IDLE that completes leaves the configuration and the pending
inputs, hands out no verdict and no frame (the record is the model's form, log entry 3), and emits only values in range. -/
def Obligations.IngestFrame : Prop :=
  ∀ (i : Instr) (s t : State), (i = .idle ∨ ∃ chunk, i = .ingest chunk) → exec i s = .next t →
    t.cfg = s.cfg ∧ t.inputs = s.inputs ∧ t.out.verdict = none ∧ t.out.frame = none ∧
      ∀ e ∈ t.out.events, ChannelRange e.a ∧ ChannelRange e.b ∧ ChannelRange e.c ∧ ChannelRange e.d

/-! ### Reset (70_reset_and_hazards.md) -/

/-- 70_reset_and_hazards.md R170: RESET is accepted in every state, writes all four state elements, emits no event, and
leaves the rest. -/
def Obligations.ResetWritesAllState : Prop :=
  ∀ s : State, s.cfg.wf = true →
    ∃ o : Output,
      exec .reset s =
        .next { s with
          block := .live { acc := [], seqNext := s.cfg.seqInit, rejCount := 0, fault := .none }
          out := o } ∧
        o.events = []

/-- 70_reset_and_hazards.md, "Reset", and 60_exceptions.md, "Privilege and platform": RESET leaves the configuration and the
pending inputs and hands out nothing at all (the record is the model's form, log entry 3); two machines of one configuration
hold the same block after it, whatever they held before. -/
def Obligations.ResetFrame : Prop :=
  (∀ s t : State, exec .reset s = .next t → t.cfg = s.cfg ∧ t.inputs = s.inputs ∧ t.out = {}) ∧
    ∀ s s' t t' : State, s.cfg = s'.cfg → exec .reset s = .next t → exec .reset s' = .next t' → t.block = t'.block

/-- 70_reset_and_hazards.md R171: from `Unreset`, RESET leads to the reset state, INGEST and IDLE are refused as PRE_RESET,
and reading a status output is refused. -/
def Obligations.UnresetRefusesAllButReset : Prop :=
  ∀ (s : State) (chunk : List Byte), s.cfg.wf = true → s.block = .unreset →
    (∃ t, exec .reset s = .next t ∧
      t.block = .live { acc := [], seqNext := s.cfg.seqInit, rejCount := 0, fault := .none }) ∧
      exec (.ingest chunk) s = .refused .preReset ∧ exec .idle s = .refused .preReset ∧
      readStatus s = .error .preReset

/-- 10_state.md, "Reset values": the state right after reset of this hardware, and what its status outputs read. That the
machine starts right after RESET and not in `Unreset` is the model's reading (DEDUCED, log entry 5). -/
def Obligations.StateAfterReset : Prop :=
  State.reset.block = .live { acc := [], seqNext := 0, rejCount := 0, fault := .none } ∧
    State.reset.cfg = Config.hardware ∧ State.reset.out = { events := [], verdict := none, frame := none } ∧
    ∃ o, readStatus State.reset = .ok o ∧ o.seqNextO = 0#32 ∧ o.seqExhaustedO = 0#1 ∧ o.rejCountO = 0#32 ∧
      o.faultO = 0#1

/-! ### The step -/

/-- 20_memory.md, "Access widths, atomicity and side effects": the next input that decodes to a well-formed operation is taken
and exactly that operation is executed, as one step. The list of pending inputs is the model's own (DESIGN CHOICE, log entry
2). -/
def Obligations.StepRunsDecodedOperation : Prop :=
  ∀ (s : State) (x : Input) (rest : List Input) (i : Instr), s.inputs = x :: rest → decode s.cfg x = .ok i →
    i.wf s.cfg = true → step s = exec i { s with inputs := rest }

/-- 60_exceptions.md, "Privilege and platform" (power states), with the model's own form of the host (DESIGN CHOICE, log entry
2): while nothing is presented, the block's state stays as it is and nothing is handed out. -/
def Obligations.NothingPresentedKeepsBlock : Prop :=
  ∀ s : State, s.cfg.wf = true → s.inputs = [] →
    step s = .next { s with out := { events := [], verdict := none, frame := none } }
end

