-- ==== Sys2Proof/Laws/Acc.lean ====
section
/-! SUPPORT. What each accumulator primitive (20_memory.md R41) answers, and the markers in terms of list positions. -/

namespace Sys2Proof

/-! ### Windows and their bytes -/

@[simp] theorem Window.bytes_length (w : Window) : w.bytes.length = 16 := rfl

@[simp] theorem Window.ofBytes_bytes (w : Window) : Window.ofBytes w.bytes = some w := rfl

/-- Bytes make a window exactly when they are its bytes. -/
theorem Window.ofBytes_eq_some {l : List Byte} {w : Window} : Window.ofBytes l = some w ↔ l = w.bytes := by
  constructor
  · intro h
    unfold Window.ofBytes at h
    split at h
    · obtain rfl := Option.some.inj h
      rfl
    · cases h
  · rintro rfl
    exact Window.ofBytes_bytes w

/-- Sixteen bytes make a window. -/
theorem Window.exists_of_length {l : List Byte} (h : l.length = 16) : ∃ w : Window, l = w.bytes := by
  match l, h with
  | [b0, b1, b2, b3, b4, b5, b6, b7, b8, b9, b10, b11, b12, b13, b14, b15], _ =>
    exact ⟨⟨b0, b1, b2, b3, b4, b5, b6, b7, b8, b9, b10, b11, b12, b13, b14, b15⟩, rfl⟩

/-- `valid` in the bytes it looks at. -/
theorem Window.valid_iff (f : Window) :
    f.valid = true ↔ f.f0 = 0xDE ∧ f.f1 = 0xAD ∧ f.f14 = 0xBE ∧ f.f15 = 0xEF := by
  simp only [Window.valid, Bool.and_eq_true, decide_eq_true_eq, and_assoc]
  rfl

namespace Machine

/-! ### The primitives -/

/-- Everything `accRead` can answer. -/
theorem accRead_eq_ok {acc : List Byte} {k : Nat} {b : Byte} : accRead acc k = .ok b ↔ acc[k]? = some b := by
  unfold accRead
  split <;> simp_all

/-- Everything `accDrop` can answer. -/
theorem accDrop_eq_ok {acc acc' : List Byte} {n : Nat} :
    accDrop acc n = .ok acc' ↔ n ≤ acc.length ∧ acc' = acc.drop n := by
  unfold accDrop
  split <;> simp_all [eq_comm]

/-- Everything `accKeepSuffix` can do. -/
theorem accKeepSuffix_spec (acc : List Byte) (n : Nat) :
    accKeepSuffix acc n <:+ acc ∧ (accKeepSuffix acc n).length = min n acc.length := by
  refine ⟨List.drop_suffix _ _, ?_⟩
  simp [accKeepSuffix]
  omega

theorem accKeepSuffix_sixteen (acc : List Byte) : accKeepSuffix acc 16 = last16 acc := rfl

/-- Everything `accWindow` can answer: the sixteen bytes at `i`, where the requirement of 20_memory.md R41 is met. -/
theorem accWindow_eq_ok {acc : List Byte} {i : Nat} {w : Window} :
    accWindow acc i = .ok w ↔ ∃ pre rest, acc = pre ++ w.bytes ++ rest ∧ pre.length = i := by
  constructor
  · intro h
    unfold accWindow at h
    split at h
    · next w' hw =>
      obtain rfl := Except.ok.inj h
      have hb := Window.ofBytes_eq_some.mp hw
      have hlen := congrArg List.length hb
      simp only [List.length_take, List.length_drop, Window.bytes_length] at hlen
      refine ⟨acc.take i, acc.drop (i + 16), ?_, by simp only [List.length_take]; omega⟩
      rw [← hb, List.append_assoc, ← List.drop_drop, List.take_append_drop, List.take_append_drop]
    · cases h
  · rintro ⟨pre, rest, rfl, rfl⟩
    unfold accWindow
    rw [List.append_assoc, List.drop_left, List.take_left' (Window.bytes_length w), Window.ofBytes_bytes]

/-- The requirement of `AccWindow` is all it needs. -/
theorem accWindow_of_le {acc : List Byte} {i : Nat} (h : i + 16 ≤ acc.length) : ∃ w, accWindow acc i = .ok w := by
  obtain ⟨w, hw⟩ := Window.exists_of_length (l := (acc.drop i).take 16) (by simp; omega)
  exact ⟨w, by simp [accWindow, hw]⟩

/-- Everything `dropAcc` can answer. -/
theorem dropAcc_eq_ok {r r' : Regs} {n : Nat} :
    dropAcc r n = .ok r' ↔ n ≤ r.acc.length ∧ r' = { r with acc := r.acc.drop n } := by
  unfold dropAcc accDrop
  split <;> split at * <;> simp_all [eq_comm]

/-! ### Markers -/

/-- The machine's test at a position is the marker of the spec. -/
theorem markerAt_iff {acc : List Byte} {i : Nat} : markerAt acc i = true ↔ MarkerAt acc i := by
  simp [markerAt, MarkerAt, accRead_eq_ok, hdr0, hdr1]

/-- A marker lies inside the accumulator. -/
theorem MarkerAt.lt {acc : List Byte} {i : Nat} (h : MarkerAt acc i) : i + 1 < acc.length := by
  obtain ⟨hl, -⟩ := List.getElem?_eq_some_iff.mp h.2
  exact hl

/-- A marker is decided by two bytes, so appending keeps it. -/
theorem MarkerAt.append {acc : List Byte} {i : Nat} (h : MarkerAt acc i) (more : List Byte) :
    MarkerAt (acc ++ more) i := by
  have hl := h.lt
  unfold MarkerAt at h ⊢
  rw [List.getElem?_append_left (by omega), List.getElem?_append_left hl]
  exact h

/-- A marker of an extended accumulator that lies wholly in the old part was there. -/
theorem MarkerAt.of_append {acc more : List Byte} {i : Nat} (h : MarkerAt (acc ++ more) i) (hl : i + 1 < acc.length) :
    MarkerAt acc i := by
  unfold MarkerAt at h ⊢
  rwa [List.getElem?_append_left (by omega), List.getElem?_append_left hl] at h

/-- Dropping a prefix moves markers. -/
theorem markerAt_drop {acc : List Byte} {n i : Nat} : MarkerAt (acc.drop n) i ↔ MarkerAt acc (n + i) := by
  simp [MarkerAt, List.getElem?_drop, Nat.add_assoc]

/-- A position at which no marker stands is decided by the finitely many positions there are. -/
theorem noMarker_of_all {acc : List Byte} (h : (List.range acc.length).all fun i => !markerAt acc i) : NoMarker acc := by
  intro i hm
  have hi := List.all_eq_true.mp h i (List.mem_range.mpr (by have := hm.lt; omega))
  simp [markerAt_iff.mpr hm] at hi

/-- The earliest marker is decided by the positions up to it. -/
theorem earliestMarker_of_all {acc : List Byte} {i : Nat}
    (h : (markerAt acc i && (List.range i).all fun j => !markerAt acc j) = true) : EarliestMarker acc i := by
  obtain ⟨h1, h2⟩ := (Bool.and_eq_true _ _).mp h
  refine ⟨markerAt_iff.mp h1, fun j hj hm => ?_⟩
  have hj' := List.all_eq_true.mp h2 j (List.mem_range.mpr hj)
  simp [markerAt_iff.mpr hm] at hj'

/-- Two earliest markers are one. -/
theorem EarliestMarker.unique {acc : List Byte} {i j : Nat} (hi : EarliestMarker acc i) (hj : EarliestMarker acc j) :
    i = j := by
  rcases Nat.lt_trichotomy i j with h | h | h
  · exact absurd hi.1 (hj.2 i h)
  · exact h
  · exact absurd hj.1 (hi.2 j h)

end Machine

end Sys2Proof
end

