-- ==== Sys2Proof/Laws/Codec.lean ====
section
/-! SUPPORT. The numbers behind the codec's bit operations: the field as a number, and the mask and bytes of `ENCODE`. -/

namespace Sys2Proof.Machine

/-- The field is the number its three bytes make, the first byte the highest (30_encoding.md R63). -/
theorem rawField_toNat (b0 b1 b2 : Byte) :
    (rawField b0 b1 b2).toNat = b0.toNat * 65536 + b1.toNat * 256 + b2.toNat := by
  have h1 := b1.isLt
  have h2 := b2.isLt
  unfold rawField
  rw [BitVec.toNat_append, BitVec.toNat_append, ← Nat.shiftLeft_add_eq_or_of_lt h2,
    ← Nat.shiftLeft_add_eq_or_of_lt h1]
  simp only [Nat.shiftLeft_eq]
  omega

/-- The mask leaves 20 bits (40_packet_codec.md R89). -/
theorem mask20_lt (x : Int) : mask20 x < 2 ^ 20 := by
  unfold mask20
  omega

/-- The mask is the remainder modulo 2^20 (40_packet_codec.md R91). -/
theorem mask20_eq (x : Int) : (mask20 x : Int) = x % 2 ^ 20 := by
  unfold mask20
  omega

/-- The three bytes of an encoded field are the digits of its mask (40_packet_codec.md R89). -/
theorem fieldByte_toNat (x : Int) :
    (fieldByte0 x).toNat = mask20 x / 65536 ∧ (fieldByte1 x).toNat = mask20 x / 256 % 256 ∧
      (fieldByte2 x).toNat = mask20 x % 256 := by
  have h := mask20_lt x
  have e : ∀ n : Nat, n &&& 0xFF = n % 256 := fun n => Nat.and_two_pow_sub_one_eq_mod n 8
  simp only [fieldByte0, fieldByte1, fieldByte2, BitVec.toNat_ofNat, Nat.shiftRight_eq_div_pow, e]
  omega

end Sys2Proof.Machine
end

