-- ==== Sys2Proof/Laws/State.lean ====
section
/-! SUPPORT. One lemma per field of each update of the tuple and of the machine, so that no later proof unfolds a record
update. -/

namespace Sys2Proof.Machine

/-! ### Updates of the tuple -/

@[simp] theorem enterFault_acc (r : Regs) : (enterFault r).acc = r.acc := rfl
@[simp] theorem enterFault_seqNext (r : Regs) : (enterFault r).seqNext = r.seqNext := rfl
@[simp] theorem enterFault_rejCount (r : Regs) : (enterFault r).rejCount = r.rejCount := rfl
@[simp] theorem enterFault_fault (r : Regs) : (enterFault r).fault = .seqExhausted := rfl

@[simp] theorem countReject_acc (c : Config) (r : Regs) : (countReject c r).acc = r.acc := rfl
@[simp] theorem countReject_seqNext (c : Config) (r : Regs) : (countReject c r).seqNext = r.seqNext := rfl
@[simp] theorem countReject_rejCount (c : Config) (r : Regs) :
    (countReject c r).rejCount = (r.rejCount + 1) % 2 ^ c.rejWidth := rfl
@[simp] theorem countReject_fault (c : Config) (r : Regs) : (countReject c r).fault = r.fault := rfl

@[simp] theorem resetRegs_acc (c : Config) : (resetRegs c).acc = [] := rfl
@[simp] theorem resetRegs_seqNext (c : Config) : (resetRegs c).seqNext = c.seqInit := rfl
@[simp] theorem resetRegs_rejCount (c : Config) : (resetRegs c).rejCount = 0 := rfl
@[simp] theorem resetRegs_fault (c : Config) : (resetRegs c).fault = .none := rfl

/-! ### Updates of the machine -/

@[simp] theorem quiet_cfg (s : State) : (quiet s).cfg = s.cfg := rfl
@[simp] theorem quiet_block (s : State) : (quiet s).block = s.block := rfl
@[simp] theorem quiet_out (s : State) : (quiet s).out = {} := rfl
@[simp] theorem quiet_inputs (s : State) : (quiet s).inputs = s.inputs := rfl

@[simp] theorem deliver_cfg (s : State) (r : Regs) (es : List Sample) : (deliver s r es).cfg = s.cfg := rfl
@[simp] theorem deliver_block (s : State) (r : Regs) (es : List Sample) : (deliver s r es).block = .live r := rfl
@[simp] theorem deliver_out (s : State) (r : Regs) (es : List Sample) : (deliver s r es).out = { events := es } := rfl
@[simp] theorem deliver_inputs (s : State) (r : Regs) (es : List Sample) : (deliver s r es).inputs = s.inputs := rfl

@[simp] theorem resetWith_cfg (c : Config) (xs : List Input) : (State.resetWith c xs).cfg = c := rfl
@[simp] theorem resetWith_block (c : Config) (xs : List Input) :
    (State.resetWith c xs).block = .live (Regs.reset c) := rfl
@[simp] theorem resetWith_out (c : Config) (xs : List Input) : (State.resetWith c xs).out = {} := rfl
@[simp] theorem resetWith_inputs (c : Config) (xs : List Input) : (State.resetWith c xs).inputs = xs := rfl

@[simp] theorem powerUp_cfg (c : Config) (xs : List Input) : (State.powerUp c xs).cfg = c := rfl
@[simp] theorem powerUp_block (c : Config) (xs : List Input) : (State.powerUp c xs).block = .unreset := rfl
@[simp] theorem powerUp_out (c : Config) (xs : List Input) : (State.powerUp c xs).out = {} := rfl
@[simp] theorem powerUp_inputs (c : Config) (xs : List Input) : (State.powerUp c xs).inputs = xs := rfl

end Sys2Proof.Machine
end

