-- ==== Sys2Proof/Laws/Ops.lean ====
section
/-! SUPPORT. For each shared operation of Machine/Ops.lean, one lemma that says everything it can do; later proofs cite
these and do not unfold the operation. -/

namespace Sys2Proof.Machine

/-! ### The configuration check -/

/-- A guarded operation answers a next state exactly when the configuration is well formed and the operation does. -/
theorem guarded_eq_next {s t : State} {k : Host.Outcome State Fault Refusal} :
    guarded s k = .next t ↔ s.cfg.wf = true ∧ k = .next t := by
  unfold guarded
  split <;> simp_all

theorem guarded_of_wf {s : State} (h : s.cfg.wf = true) (k : Host.Outcome State Fault Refusal) : guarded s k = k := by
  simp [guarded, h]

theorem guarded_of_not_wf {s : State} (h : s.cfg.wf = false) (k : Host.Outcome State Fault Refusal) :
    guarded s k = .refused .badConfig := by
  simp [guarded, h]

/-! ### The verdict and one candidate -/

/-- The two verdicts (40_packet_codec.md R82, R83). -/
theorem decodeWindow_cases (w : Window) :
    (w.valid = true ∧
        decodeWindow w = .accepted (fieldValue w.f2 w.f3 w.f4) (fieldValue w.f5 w.f6 w.f7)
          (fieldValue w.f8 w.f9 w.f10) (fieldValue w.f11 w.f12 w.f13)) ∨
      (w.valid = false ∧ decodeWindow w = .rejected) := by
  unfold decodeWindow
  cases w.valid <;> simp

/-- Everything step 2d can do with a whole candidate (41_frame_synchronizer.md R106). -/
theorem extract_cases (c : Config) {r : Regs} {i : Nat} (h : i + 16 ≤ r.acc.length) :
    ∃ pre w rest, r.acc = pre ++ w.bytes ++ rest ∧ pre.length = i ∧
      ((w.valid = true ∧ r.seqNext ≠ 2 ^ c.seqWidth ∧
          extract c r i = .ok (.emitted { r with acc := rest, seqNext := r.seqNext + 1 } (sampleOf r.seqNext w))) ∨
        (w.valid = true ∧ r.seqNext = 2 ^ c.seqWidth ∧ extract c r i = .ok (.faulted (enterFault r))) ∨
        (w.valid = false ∧
          extract c r i = .ok (.dropped { r with acc := rest, rejCount := (r.rejCount + 1) % 2 ^ c.rejWidth }))) := by
  obtain ⟨w, hw⟩ := accWindow_of_le h
  obtain ⟨pre, rest, hacc, hi⟩ := accWindow_eq_ok.mp hw
  have hdrop : r.acc.drop (i + 16) = rest := by
    rw [hacc, ← hi]
    exact List.drop_left' (by simp)
  have hd : ∀ r' : Regs, r'.acc = r.acc → dropAcc r' (i + 16) = .ok { r' with acc := rest } := fun r' h' =>
    dropAcc_eq_ok.mpr ⟨by rw [h']; exact h, by rw [h', hdrop]⟩
  refine ⟨pre, w, rest, hacc, hi, ?_⟩
  unfold extract
  rcases decodeWindow_cases w with ⟨hv, hdw⟩ | ⟨hv, hdw⟩
  · by_cases hs : r.seqNext = 2 ^ c.seqWidth
    · right; left
      exact ⟨hv, hs, by simp [hw, hdw, acceptSample, hs]⟩
    · left
      refine ⟨hv, hs, ?_⟩
      simp only [hw, hdw, acceptSample, if_neg hs]
      rw [hd { r with seqNext := r.seqNext + 1 } rfl]
      rfl
  · right; right
    refine ⟨hv, ?_⟩
    simp only [hw, hdw]
    rw [hd (countReject c r) rfl]
    rfl

/-! ### One INGEST -/

/-- Everything `acceptSample` can do (42_outputs_and_sequencing.md R130, R131). -/
theorem acceptSample_cases (c : Config) (r : Regs) (a b cc d : Int) :
    (r.seqNext = 2 ^ c.seqWidth ∧ acceptSample c r a b cc d = none) ∨
      (r.seqNext ≠ 2 ^ c.seqWidth ∧
        acceptSample c r a b cc d =
          some ({ r with seqNext := r.seqNext + 1 }, { seq := r.seqNext, a := a, b := b, c := cc, d := d })) := by
  unfold acceptSample
  split <;> simp_all

/-- One pass of the loop by what the scan finds (41_frame_synchronizer.md R104, R105, R106). -/
theorem ingestLoop_of_scan_none {c : Config} {r : Regs} (fuel : Nat) (h : scan r.acc = none) :
    ingestLoop c (fuel + 1) r = .ok ({ r with acc := last16 r.acc }, []) := by
  simp [ingestLoop, h, accKeepSuffix_sixteen]

theorem ingestLoop_of_hold {c : Config} {r : Regs} {i : Nat} (fuel : Nat) (h : scan r.acc = some i)
    (hl : r.acc.length < i + 16) : ingestLoop c (fuel + 1) r = .ok (r, []) := by
  simp [ingestLoop, h, hl]

theorem ingestLoop_of_extract {c : Config} {r : Regs} {i : Nat} (fuel : Nat) (h : scan r.acc = some i)
    (hl : i + 16 ≤ r.acc.length) :
    ingestLoop c (fuel + 1) r =
      match extract c r i with
      | .error f => .error f
      | .ok (.faulted r') => .ok (r', [])
      | .ok (.dropped r') => ingestLoop c fuel r'
      | .ok (.emitted r' e) =>
        match ingestLoop c fuel r' with
        | .error f => .error f
        | .ok (r'', es) => .ok (r'', e :: es) := by
  simp only [ingestLoop, h]
  exact if_neg (Nat.not_lt.mpr hl)

/-- Everything an INGEST that answers a next state has done. -/
theorem ingestChunk_next {chunk : List Byte} {s t : State} (h : ingestChunk chunk s = .next t) :
    s.cfg.wf = true ∧ ∃ r, s.block = .live r ∧ chunk.length ≤ s.cfg.chunkMax ∧
      ((r.fault ≠ .none ∧ t = quiet s) ∨
        (r.fault = .none ∧ ∃ r' es, ingestRegs s.cfg r chunk = .ok (r', es) ∧ t = deliver s r' es)) := by
  obtain ⟨hwf, h⟩ := guarded_eq_next.mp h
  refine ⟨hwf, ?_⟩
  split at h
  · cases h
  · next r hb =>
    refine ⟨r, hb, ?_⟩
    split at h
    · cases h
    · next hl =>
      refine ⟨Nat.le_of_not_lt hl, ?_⟩
      split at h
      · next hf =>
        cases h
        exact .inl ⟨hf, rfl⟩
      · next hf =>
        split at h
        · cases h
        · next r' es hr =>
          cases h
          exact .inr ⟨not_not.mp hf, r', es, hr, rfl⟩

/-- An INGEST that is not turned away runs the loop on the tuple (41_frame_synchronizer.md R101, R111). -/
theorem ingestChunk_live {chunk : List Byte} {s : State} {r : Regs} (hwf : s.cfg.wf = true) (hb : s.block = .live r)
    (hl : chunk.length ≤ s.cfg.chunkMax) (hf : r.fault = .none) :
    ingestChunk chunk s =
      match ingestRegs s.cfg r chunk with
      | .error f => .fault f
      | .ok (r', events) => .next (deliver s r' events) := by
  simp only [ingestChunk, guarded_of_wf hwf, hb]
  exact (if_neg (Nat.not_lt.mpr hl)).trans (if_neg (not_not.mpr hf))

/-- In the fault state an INGEST is dropped (60_exceptions.md R154). -/
theorem ingestChunk_faulted {chunk : List Byte} {s : State} {r : Regs} (hwf : s.cfg.wf = true) (hb : s.block = .live r)
    (hl : chunk.length ≤ s.cfg.chunkMax) (hf : r.fault ≠ .none) : ingestChunk chunk s = .next (quiet s) := by
  simp [ingestChunk, guarded_of_wf hwf, hb, Nat.not_lt.mpr hl, hf]

/-- An input that is no operation is refused, whatever it is. -/
theorem refuseInput_refused (e : Reject) (s : State) : ∃ f, refuseInput e s = .refused f := by
  unfold refuseInput
  split
  · split <;> exact ⟨_, rfl⟩
  · exact ⟨_, rfl⟩
  · exact ⟨_, rfl⟩

end Sys2Proof.Machine
end

