-- ==== Sys2Proof/Laws/PerInstr.lean ====
section
/-! SUPPORT. A fact about every operation as syntax, constructor by constructor: the encoder writes a word the port can
carry, or exactly sixteen bytes. -/

namespace Sys2Proof.Laws

/-- The lanes of a chunk fill no more bits than its bytes have. -/
theorem lanesWord_lt (bs : List Byte) : lanesWord bs < 2 ^ (8 * bs.length) := by
  induction bs with
  | nil => simp [lanesWord]
  | cons b bs ih =>
    have hb := b.isLt
    rw [lanesWord, List.length_cons, Nat.mul_succ, Nat.pow_add]
    omega

/-- The count field holds CHUNK_MAX (30_encoding.md R69). -/
theorem chunkMax_lt_count (c : Config) : c.chunkMax < 2 ^ countBits c :=
  Nat.lt_of_lt_of_le (Nat.lt_succ_self _) (Nat.le_pow_clog (by decide) _)

/-- A word of three fields that fit is a word of the port. -/
theorem portWord_lt {c : Config} {rst : Bool} {n w : Nat} (hn : n ≤ c.chunkMax) (hw : w < 2 ^ laneBits c) :
    portWord c rst n w < 2 ^ portBits c := by
  have hc := chunkMax_lt_count c
  have hr : rst.toNat ≤ 1 := Bool.toNat_le rst
  unfold portWord portBits
  rw [Nat.add_assoc 1, Nat.pow_add 2 1, Nat.pow_add 2 (countBits c)]
  have h1 : (n + 1) * 2 ^ laneBits c ≤ 2 ^ countBits c * 2 ^ laneBits c := Nat.mul_le_mul_right _ (by omega)
  have h2 : rst.toNat * (2 ^ countBits c * 2 ^ laneBits c) ≤ 1 * (2 ^ countBits c * 2 ^ laneBits c) :=
    Nat.mul_le_mul_right _ hr
  rw [Nat.add_mul] at h1
  omega

namespace EncodeFits

/-- What the encoder writes fits the input it is for (30_encoding.md R60, R69). -/
def Statement (i : Instr) : Prop :=
  ∀ c : Config, i.wf c = true →
    match encode c i with
    | .port w => w < 2 ^ portBits c
    | .window bytes => bytes.length = 16
    | .operands _ _ _ _ => True

theorem reset : Statement .reset := fun _ _ => portWord_lt (Nat.zero_le _) (Nat.two_pow_pos _)

theorem ingest (chunk : List Byte) : Statement (.ingest chunk) := by
  intro c h
  simp only [Instr.wf, Bool.and_eq_true, decide_eq_true_eq] at h
  refine portWord_lt h.2 (Nat.lt_of_lt_of_le (lanesWord_lt chunk) ?_)
  exact Nat.pow_le_pow_right (by decide) (Nat.mul_le_mul_left 8 h.2)

theorem idle : Statement .idle := fun _ _ => portWord_lt (Nat.zero_le _) (Nat.two_pow_pos _)

theorem decodeAccept (f : Window) : Statement (.decodeAccept f) := fun _ _ => rfl

theorem decodeReject (f : Window) : Statement (.decodeReject f) := fun _ _ => rfl

theorem encode (a b c d : Int) : Statement (.encode a b c d) := fun _ _ => trivial

end EncodeFits

end Sys2Proof.Laws
end

