-- ==== Sys2Proof/Laws/Step.lean ====
section
/-! SUPPORT. Everything one operation and one step can do when they answer a next state. -/

namespace Sys2Proof.Machine

/-! ### The arms of `exec` -/

@[simp] theorem exec_reset (s : State) : exec .reset s = execReset s := rfl
@[simp] theorem exec_ingest (chunk : List Byte) (s : State) : exec (.ingest chunk) s = ingestChunk chunk s := rfl
@[simp] theorem exec_idle (s : State) : exec .idle s = ingestChunk [] s := rfl
@[simp] theorem exec_decodeAccept (f : Window) (s : State) : exec (.decodeAccept f) s = execDecodeAccept f s := rfl
@[simp] theorem exec_decodeReject (f : Window) (s : State) : exec (.decodeReject f) s = execDecodeReject f s := rfl
@[simp] theorem exec_encode (a b c d : Int) (s : State) : exec (.encode a b c d) s = execEncode a b c d s := rfl

/-! ### What an operation and a step can do -/

/-- Everything `exec` can do when it answers a next state: an INGEST or IDLE of a chunk, the RESET of the tuple, or a
codec function that writes the output alone. -/
theorem exec_next {i : Instr} {s t : State} (h : exec i s = .next t) :
    s.cfg.wf = true ∧
      ((∃ chunk, (i = .ingest chunk ∨ (i = .idle ∧ chunk = [])) ∧ ingestChunk chunk s = .next t) ∨
        (i = .reset ∧ t = { s with block := .live (resetRegs s.cfg), out := {} }) ∨
        ∃ verdict frame, t = { s with out := { verdict := verdict, frame := frame } }) := by
  cases i with
  | reset =>
    obtain ⟨hwf, h⟩ := guarded_eq_next.mp h
    cases h
    exact ⟨hwf, .inr (.inl ⟨rfl, rfl⟩)⟩
  | ingest chunk => exact ⟨(guarded_eq_next.mp h).1, .inl ⟨chunk, .inl rfl, h⟩⟩
  | idle => exact ⟨(guarded_eq_next.mp h).1, .inl ⟨[], .inr ⟨rfl, rfl⟩, h⟩⟩
  | decodeAccept f =>
    obtain ⟨hwf, h⟩ := guarded_eq_next.mp h
    split at h
    · cases h
      exact ⟨hwf, .inr (.inr ⟨_, _, rfl⟩)⟩
    · cases h
  | decodeReject f =>
    obtain ⟨hwf, h⟩ := guarded_eq_next.mp h
    split at h
    · cases h
    · cases h
      exact ⟨hwf, .inr (.inr ⟨_, _, rfl⟩)⟩
  | encode a b c d =>
    obtain ⟨hwf, h⟩ := guarded_eq_next.mp h
    cases h
    exact ⟨hwf, .inr (.inr ⟨_, _, rfl⟩)⟩

/-- Everything a step can do when it answers a next state: nothing was presented, or the next input was taken and its
operation executed. -/
theorem step_next {s t : State} (h : step s = .next t) :
    s.cfg.wf = true ∧
      ((s.inputs = [] ∧ t = quiet s) ∨
        ∃ x rest i, s.inputs = x :: rest ∧ decode s.cfg x = .ok i ∧ exec i { s with inputs := rest } = .next t) := by
  obtain ⟨hwf, h⟩ := guarded_eq_next.mp h
  refine ⟨hwf, ?_⟩
  split at h
  · next hi =>
    cases h
    exact .inl ⟨hi, rfl⟩
  · next x rest hi =>
    split at h
    · next i hd => exact .inr ⟨x, rest, i, hi, hd, h⟩
    · next e hd =>
      obtain ⟨f, hf⟩ := refuseInput_refused e { s with inputs := rest }
      rw [hf] at h
      cases h

end Sys2Proof.Machine
end

