-- ==== Sys2Proof/Tests/Slice0.lean ====
section
/-! SUPPORT. Tests: ill-formed terms, words read from the encodings, worked examples of spec/95_test_vectors.md, and for
each statement with hypotheses a concrete case that meets all of them. -/

namespace Sys2Proof.Tests

open Sys2Proof Sys2Proof.Machine

/-! ### Small configurations, states and windows -/

/-- A configuration with small counters: 4 indices, and rejections modulo 4. -/
def smallCfg : Config := { chunkMax := 40, accCap := 109, outWidth := 32, seqWidth := 2, seqInit := 0, rejWidth := 2 }

/-- A port of five lanes, whose 3-bit count can be 6 or 7. -/
def fiveCfg : Config := { smallCfg with chunkMax := 5 }

/-- A live block with the small configuration. -/
def liveState (acc : List Byte) (q j : Nat) (f : FaultCode) : State :=
  { cfg := smallCfg, block := .live ⟨acc, q, j, f⟩, out := {}, inputs := [] }

/-- FRAME(1,2,3,4) (spec/95_test_vectors.md). -/
def goodFrame : Window := ⟨0xDE, 0xAD, 0, 0, 1, 0, 0, 2, 0, 0, 3, 0, 0, 4, 0xBE, 0xEF⟩

/-- FRAME(1,2,3,4) with byte 15 = EE (spec/95_test_vectors.md, K5). -/
def badTrailer : Window := { goodFrame with f15 := 0xEE }

/-- The tuple and the events of an outcome. -/
def resultOf : Host.Outcome State Fault Refusal → Option (Block × List Sample)
  | .next t => some (t.block, t.out.events)
  | _ => none

/-- The reason of a refusal. -/
def refusalOf : Host.Outcome State Fault Refusal → Option Refusal
  | .refused f => some f
  | _ => none

/-! ### Ill-formed terms and configurations are refused -/

theorem test_wf_ingest_empty : (Instr.ingest []).wf Config.hardware = false := by decide
theorem test_wf_ingest_too_long : (Instr.ingest [1, 2]).wf Config.hardware = false := by decide
theorem test_wf_accept_of_bad_window : (Instr.decodeAccept badTrailer).wf Config.hardware = false := by decide
theorem test_wf_reject_of_good_window : (Instr.decodeReject goodFrame).wf Config.hardware = false := by decide
theorem test_wf_one_byte : (Instr.ingest [1]).wf Config.hardware = true := by decide
theorem test_config_hardware : Config.hardware.wf = true := by decide
theorem test_config_chunkMax : ({ Config.hardware with chunkMax := 0 } : Config).wf = false := by decide
theorem test_config_accCap : ({ Config.hardware with accCap := 30 } : Config).wf = false := by decide
theorem test_config_outWidth : ({ Config.hardware with outWidth := 19 } : Config).wf = false := by decide
theorem test_config_seqWidth : ({ Config.hardware with seqWidth := 0 } : Config).wf = false := by decide
theorem test_config_seqInit : ({ Config.hardware with seqWidth := 2, seqInit := 4 } : Config).wf = false := by decide
theorem test_config_rejWidth : ({ Config.hardware with rejWidth := 0 } : Config).wf = false := by decide

/-! ### Words written out from the encodings -/

/-- RESET is 0x200 (30_encoding.md R68; spec/95_test_vectors.md, part 7). -/
theorem test_decode_reset : decodeTableWord 16 0b1000000000 = some .reset := by decide
/-- S22: rst and in_valid together are a RESET. -/
theorem test_decode_reset_priority : decodeTableWord 16 0x3DE = some .reset := by decide
/-- P1, step 4: INGEST [DE]. -/
theorem test_decode_ingest : decodeTableWord 16 0b0111011110 = some (.ingest [0xDE]) := by decide
/-- IDLE does not care for its byte (30_encoding.md R68). -/
theorem test_decode_idle : decodeTableWord 16 0b0010101010 = some .idle := by decide
/-- A word of eleven bits is no word of the port. -/
theorem test_decode_not_port_word : decodeTableWord 16 0x400 = none := by decide
/-- K1. -/
theorem test_decode_accept :
    decodeTableWord 128 0xDEAD000001000002000003000004BEEF = some (.decodeAccept goodFrame) := by decide
/-- K5. -/
theorem test_decode_reject :
    decodeTableWord 128 0xDEAD000001000002000003000004BEEE = some (.decodeReject badTrailer) := by decide
/-- 30_encoding.md R69 with CHUNK_MAX = 16: k = 5, `in_count` at bits 132..128, lane 0 in the lowest byte. -/
theorem test_decode_wide_port :
    decode { smallCfg with chunkMax := 16 } (.port (2 * 2 ^ 128 + 0xAD * 256 + 0xDE)) = .ok (.ingest [0xDE, 0xAD]) := by
  rfl
/-- The same port: `in_count = 17` is over CHUNK_MAX. -/
theorem test_decode_count_over :
    decode { smallCfg with chunkMax := 16 } (.port (17 * 2 ^ 128)) = .error (.countTooLong 17) := by
  rfl
/-- The words of 95_test_vectors.md, part 7, from the encoder. -/
theorem test_encode_port :
    encode Config.hardware .reset = .port 0x200 ∧ encode Config.hardware (.ingest [0xAD]) = .port 0x1AD ∧
      encode Config.hardware .idle = .port 0x000 := by decide
/-- The operands of ENCODE reach it as they are. -/
theorem test_decode_encode_operands :
    decode Config.hardware (.operands (-1) 524287 (-524288) 1) = .ok (.encode (-1) 524287 (-524288) 1) := by decide

/-! ### Worked examples, one step each -/

/-- L1-4: the embedded frame; AA stays in the accumulator (90_conflicts.md C2). -/
theorem test_ingest_embedded_frame :
    resultOf (exec (.ingest ([0xFF, 0xFF] ++ goodFrame.bytes ++ [0xAA])) (liveState [] 0 0 .none)) =
      some (.live ⟨[0xAA], 1, 0, .none⟩, [⟨0, 1, 2, 3, 4⟩]) := by decide
/-- P4, step 4: the fault keeps the candidate undropped (60_exceptions.md R153). -/
theorem test_ingest_exhausted :
    resultOf (exec (.ingest goodFrame.bytes) (liveState [] 4 0 .none)) =
      some (.live ⟨goodFrame.bytes, 4, 0, .seqExhausted⟩, []) := by decide
/-- S23. -/
theorem test_idle_keeps_held_bytes :
    resultOf (exec .idle (liveState [0xDE, 0xAD, 0] 0 0 .none)) = some (.live ⟨[0xDE, 0xAD, 0], 0, 0, .none⟩, []) := by
  decide
/-- S19: IDLE before the first reset. -/
theorem test_idle_unreset : refusalOf (exec .idle (State.powerUp smallCfg [])) = some .preReset := by decide
/-- The example of 70_reset_and_hazards.md R170. -/
theorem test_reset_example :
    resultOf (exec .reset (liveState [0xDE, 0xAD, 0] 3 2 .none)) = some (.live ⟨[], 0, 0, .none⟩, []) := by decide
/-- S20: RESET clears the fault (60_exceptions.md R155). -/
theorem test_reset_clears_fault :
    resultOf (exec .reset (liveState goodFrame.bytes 4 0 .seqExhausted)) = some (.live ⟨[], 0, 0, .none⟩, []) := by
  decide
/-- K8: the don't-care nibbles F, A, 5, F are ignored. -/
theorem test_decodeAccept_nibbles :
    decodeWindow ⟨0xDE, 0xAD, 0xF0, 0, 1, 0xA0, 0, 2, 0x50, 0, 3, 0xFF, 0xFF, 0xFF, 0xBE, 0xEF⟩ =
      .accepted 1 2 3 (-1) := by decide
/-- K9: the boundary values. -/
theorem test_decodeAccept_boundaries :
    decodeWindow ⟨0xDE, 0xAD, 7, 0xFF, 0xFF, 8, 0, 0, 0x0F, 0xFF, 0xFF, 0x89, 0xAB, 0xCD, 0xBE, 0xEF⟩ =
      .accepted 524287 (-524288) (-1) (-414771) := by decide
/-- K7: byte-swapped sync words. -/
theorem test_decodeReject_swapped :
    decodeWindow ⟨0xAD, 0xDE, 0, 0, 1, 0, 0, 2, 0, 0, 3, 0, 0, 4, 0xEF, 0xBE⟩ = .rejected := by decide
/-- N3e: operands out of range. -/
theorem test_encode_out_of_range :
    encodeFrame 524288 (-524289) 1048575 (-1048576) =
      ⟨0xDE, 0xAD, 0x08, 0, 0, 0x07, 0xFF, 0xFF, 0x0F, 0xFF, 0xFF, 0, 0, 0, 0xBE, 0xEF⟩ := by decide
/-- N4e. -/
theorem test_encode_in_range :
    encodeFrame 144470 (-414771) 100 (-100) =
      ⟨0xDE, 0xAD, 0x02, 0x34, 0x56, 0x09, 0xAB, 0xCD, 0, 0, 0x64, 0x0F, 0xFF, 0x9C, 0xBE, 0xEF⟩ := by decide
/-- The status outputs in the end state of S13. -/
theorem test_status_after_fault :
    readStatus (liveState goodFrame.bytes 4 0 .seqExhausted) = .ok ⟨0#2, 1#1, 0#2, 1#1⟩ := by rfl
/-- The first instruction after reset, as the host places it: P1, step 2. -/
theorem test_first_instruction :
    resultOf (step (State.reset.withFetchWord 16 0x1FF)) = some (.live ⟨[0xFF], 0, 0, .none⟩, []) := by decide

/-! ### States that meet the invariant -/

theorem noMarker_nil : NoMarker [] := noMarker_of_all (by decide)

/-- An empty accumulator with counters in range meets the invariant. -/
theorem inv_empty {q j : Nat} (hq : q ≤ 4) (hj : j < 4) : (liveState [] q j .none).Inv := by
  refine ⟨show smallCfg.wf = true by decide, fun r hr => ?_, by simp [liveState]⟩
  cases hr
  exact ⟨Nat.zero_le q, hq, hj, fun _ => .inl ⟨noMarker_nil, Nat.zero_le _⟩, fun h => by cases h⟩

/-- A block in the fault state meets the invariant. -/
theorem inv_faulted : (liveState goodFrame.bytes 4 0 .seqExhausted).Inv := by
  refine ⟨by decide, fun r hr => ?_, by simp [liveState]⟩
  cases hr
  exact ⟨Nat.zero_le 4, Nat.le_refl 4, by decide, (fun h => by cases h), fun _ => ⟨rfl, by decide⟩⟩

/-- An incomplete frame held at the bound of its form meets the invariant. -/
theorem inv_held : (liveState (goodFrame.bytes.take 15) 0 0 .none).Inv := by
  refine ⟨by decide, fun r hr => ?_, by simp [liveState]⟩
  cases hr
  refine ⟨Nat.le_refl 0, Nat.zero_le _, by decide, fun _ => .inr ⟨0, ?_, by decide, Nat.zero_le _⟩, fun h => by cases h⟩
  exact earliestMarker_of_all (by decide)

/-! ### Every statement's hypotheses are met by a concrete case -/

theorem test_hyp_BadConfigurationRefused :
    (liveState [] 0 0 .none).cfg.wf = true ∧ ({ liveState [] 0 0 .none with cfg := { smallCfg with accCap := 108 } } :
      State).cfg.wf = false := by decide

/-- The counts where the clauses meet: 0, CHUNK_MAX, and one more. -/
theorem test_hyp_WidePortWordSelectsOperation :
    fiveCfg.wf = true ∧ [(0xAA : Byte), 1, 2, 3, 4].length = fiveCfg.chunkMax ∧
      0 < 2 ^ Nat.clog 2 (fiveCfg.chunkMax + 1) ∧ 5 < 2 ^ Nat.clog 2 (fiveCfg.chunkMax + 1) ∧
      6 < 2 ^ Nat.clog 2 (fiveCfg.chunkMax + 1) := by decide

/-- Both clauses, at the least count that is too long. -/
theorem test_hyp_CountOverMaximumRefused :
    (∃ s : State, s.cfg.wf = true ∧ s.block = .unreset ∧ ∃ x rest, s.inputs = x :: rest ∧
      decode s.cfg x = .error (.countTooLong 6)) ∧
    ∃ s : State, s.cfg.wf = true ∧ s.block = .live ⟨[], 0, 0, .none⟩ ∧ ∃ x rest, s.inputs = x :: rest ∧
      decode s.cfg x = .error (.countTooLong 6) :=
  ⟨⟨State.powerUp fiveCfg [.port (6 * 2 ^ 40)], by decide, rfl, .port (6 * 2 ^ 40), [], rfl, by decide⟩,
    ⟨State.resetWith fiveCfg [.port (6 * 2 ^ 40)], by decide, rfl, .port (6 * 2 ^ 40), [], rfl, by decide⟩⟩

/-- One window for each way to be rejected, and one that is accepted. -/
theorem test_hyp_EveryWindowHasOneVerdict :
    ¬ (badTrailer.f14 = 0xBE ∧ badTrailer.f15 = 0xEF) ∧
      ¬ ({ goodFrame with f0 := 0xDF } : Window).f0 = 0xDE ∧
      goodFrame.f0 = 0xDE ∧ goodFrame.f1 = 0xAD ∧ goodFrame.f14 = 0xBE ∧ goodFrame.f15 = 0xEF := by decide

theorem test_hyp_DecodeUndoesEncode :
    smallCfg.wf = true ∧ (Instr.ingest (List.replicate 40 0xDE)).wf smallCfg = true ∧
      (Instr.decodeAccept goodFrame).wf smallCfg = true ∧ (Instr.decodeReject badTrailer).wf smallCfg = true := by decide

theorem test_hyp_SampleEventFields :
    smallCfg.wf = true ∧ (⟨3, -524288, 524287, -1, 0⟩ : Sample).Inv smallCfg := by
  refine ⟨by decide, ?_⟩
  simp [Sample.Inv, ChannelRange, smallCfg]

theorem test_hyp_DecodeAcceptCompletes :
    (liveState [] 0 0 .none).cfg.wf = true ∧
      goodFrame.f0 = 0xDE ∧ goodFrame.f1 = 0xAD ∧ goodFrame.f14 = 0xBE ∧ goodFrame.f15 = 0xEF := by decide

theorem test_hyp_DecodeRejectCompletes :
    (State.powerUp smallCfg []).cfg.wf = true ∧
      ¬ (badTrailer.f0 = 0xDE ∧ badTrailer.f1 = 0xAD ∧ badTrailer.f14 = 0xBE ∧ badTrailer.f15 = 0xEF) := by decide

theorem test_hyp_OutputWordIsSignExtension : 20 ≤ 20 ∧ 20 ≤ Config.hardware.outWidth := by decide

/-- The two ends of the range. -/
theorem test_hyp_FieldRangeAndDontCareNibble : ChannelRange (-524288) ∧ ChannelRange 524287 := by
  simp [ChannelRange]

theorem test_hyp_EncodeWritesMaskedFields : (State.powerUp smallCfg []).cfg.wf = true := by decide

theorem test_hyp_EncodeThenDecodeInRange :
    ChannelRange (-524288) ∧ ChannelRange 524287 ∧ ChannelRange (-1) ∧ ChannelRange 0 := by
  simp [ChannelRange]

theorem test_hyp_DecodeThenEncodeClearsNibbles : decodeWindow goodFrame = .accepted 1 2 3 4 := by decide

/-- One byte too few, one too many, and sixteen. -/
theorem test_hyp_OtherLengthsRefused :
    (∃ s : State, s.cfg.wf = true ∧ s.inputs = [.window (goodFrame.bytes.take 15)] ∧
      (goodFrame.bytes.take 15).length ≠ 16) ∧
    (∃ s : State, s.cfg.wf = true ∧ s.inputs = [.window (goodFrame.bytes ++ [0])] ∧
      (goodFrame.bytes ++ [0]).length ≠ 16) ∧
    ∃ s : State, s.cfg.wf = true ∧ s.inputs = [.window goodFrame.bytes] ∧ goodFrame.bytes.length = 16 :=
  ⟨⟨State.powerUp smallCfg _, by decide, rfl, by decide⟩, ⟨State.powerUp smallCfg _, by decide, rfl, by decide⟩,
    ⟨State.powerUp smallCfg _, by decide, rfl, rfl⟩⟩

theorem test_hyp_CodecOperationsFrame :
    (∃ t, exec (.decodeAccept goodFrame) (liveState [] 0 0 .none) = .next t) ∧
      (∃ t, exec (.decodeReject badTrailer) (liveState [] 0 0 .none) = .next t) ∧
      ∃ t, exec (.encode 1 2 3 4) (liveState [] 0 0 .none) = .next t :=
  ⟨⟨_, rfl⟩, ⟨_, rfl⟩, ⟨_, rfl⟩⟩

/-- The three clauses, the chunk lengths where two of them meet. -/
theorem test_hyp_IngestPreconditionsInOrder :
    (State.powerUp smallCfg []).cfg.wf = true ∧ (State.powerUp smallCfg []).block = .unreset ∧
      (liveState [] 4 0 .seqExhausted).cfg.wf = true ∧
      smallCfg.chunkMax < (List.replicate 41 (0 : Byte)).length ∧
      (List.replicate 40 (0 : Byte)).length ≤ smallCfg.chunkMax ∧ FaultCode.seqExhausted ≠ .none := by decide

/-- The fourth clause, a live block without a fault. -/
theorem test_hyp_IngestRunsPseudocode :
    (liveState [] 0 0 .none).cfg.wf = true ∧ (liveState [] 0 0 .none).block = .live ⟨[], 0, 0, .none⟩ ∧
      (List.replicate 40 (0 : Byte)).length ≤ (liveState [] 0 0 .none).cfg.chunkMax := by decide

theorem test_hyp_PseudocodeIsDeterministic :
    IngestRun smallCfg ⟨goodFrame.bytes, 0, 0, .none⟩ [⟨0, 1, 2, 3, 4⟩] ⟨[], 1, 0, .none⟩ :=
  .accept (pre := []) (rest := []) (w := goodFrame) (by decide) (earliestMarker_of_all (by decide)) (by decide) (by decide)
    (.noMarker noMarker_nil)

/-- Sixteen marker-free bytes held and one more, so that the trim drops one; the second part has the same accumulator. -/
theorem test_hyp_NoMarkerTrimsToSixteen :
    (liveState (List.replicate 16 0) 0 0 .none).cfg.wf = true ∧
      [(0xDE : Byte)].length ≤ smallCfg.chunkMax ∧ NoMarker (List.replicate 16 0 ++ [0xDE]) :=
  ⟨by decide, by decide, noMarker_of_all (by decide)⟩

/-- One byte short of a frame; the second part has the same accumulator. -/
theorem test_hyp_IncompleteFrameIsHeld :
    (liveState (goodFrame.bytes.take 14) 0 0 .none).cfg.wf = true ∧ [(0xBE : Byte)].length ≤ smallCfg.chunkMax ∧
      EarliestMarker (goodFrame.bytes.take 14 ++ [0xBE]) 0 ∧ 0 + 16 > (goodFrame.bytes.take 14 ++ [0xBE]).length :=
  ⟨by decide, by decide, earliestMarker_of_all (by decide), by decide⟩

/-- The last index of all, and a frame that ends with the last byte that arrived. -/
theorem test_hyp_AcceptedCandidateEmitsSample :
    (liveState (goodFrame.bytes.take 15) 3 0 .none).cfg.wf = true ∧ [(0xEF : Byte)].length ≤ smallCfg.chunkMax ∧
      goodFrame.bytes.take 15 ++ [0xEF] = [] ++ goodFrame.bytes ++ [] ∧
      EarliestMarker (goodFrame.bytes.take 15 ++ [0xEF]) 0 ∧ (goodFrame.f14 = 0xBE ∧ goodFrame.f15 = 0xEF) ∧
      3 < 2 ^ smallCfg.seqWidth ∧ NoMarker [] :=
  ⟨by decide, by decide, by decide, earliestMarker_of_all (by decide), by decide, by decide, noMarker_nil⟩

/-- A bad trailer, with the rejection counter at its last value; the second part has the same accumulator. -/
theorem test_hyp_RejectedCandidateIsCounted :
    (liveState [] 0 3 .none).cfg.wf = true ∧ badTrailer.bytes.length ≤ smallCfg.chunkMax ∧
      [] ++ badTrailer.bytes = [] ++ badTrailer.bytes ++ [] ∧ EarliestMarker ([] ++ badTrailer.bytes) 0 ∧
      ¬ (badTrailer.f14 = 0xBE ∧ badTrailer.f15 = 0xEF) ∧ NoMarker [] ∧
      ∃ t, exec (.decodeReject badTrailer) (liveState [] 0 3 .none) = .next t :=
  ⟨by decide, by decide, by decide, earliestMarker_of_all (by decide), by decide, noMarker_nil, _, rfl⟩

theorem test_hyp_EventsAreBounded :
    ∃ t r', exec (.ingest goodFrame.bytes) (liveState [] 0 0 .none) = .next t ∧ t.block = .live r' :=
  ⟨_, _, rfl, rfl⟩

theorem test_hyp_OnlyTheTrailerRejects :
    scan ([0xFF] ++ badTrailer.bytes) = some 1 ∧ accWindow ([0xFF] ++ badTrailer.bytes) 1 = .ok badTrailer := by decide

theorem test_hyp_TrimLosesNoMarker : NoMarker (List.replicate 19 0 ++ [0xDE]) := noMarker_of_all (by decide)

theorem test_hyp_IdleChangesNothing :
    (liveState (goodFrame.bytes.take 15) 0 0 .none).Inv ∧
      (liveState (goodFrame.bytes.take 15) 0 0 .none).block = .live ⟨goodFrame.bytes.take 15, 0, 0, .none⟩ :=
  ⟨inv_held, rfl⟩

theorem test_hyp_StepKeepsInvariant :
    (liveState [] 0 0 .none).Inv ∧ ∃ t, step (liveState [] 0 0 .none) = .next t := ⟨inv_empty (by decide) (by decide), _, rfl⟩

theorem test_hyp_ResetMeetsInvariant : smallCfg.wf = true := by decide

/-- Without a fault and in the fault state, with the longest chunk. -/
theorem test_hyp_AccumulatorStaysWithinStorage :
    (liveState (goodFrame.bytes.take 15) 0 0 .none).Inv ∧ (liveState goodFrame.bytes 4 0 .seqExhausted).Inv ∧
      (List.replicate 40 (0 : Byte)).length ≤ smallCfg.chunkMax := ⟨inv_held, inv_faulted, by decide⟩

/-- This hardware, right after reset, given one byte. -/
theorem test_hyp_ByteSerialEmitsAtMostOne :
    State.reset.Inv ∧ State.reset.cfg.chunkMax = 1 ∧
      ∃ t r', exec (.ingest [0xDE]) State.reset = .next t ∧ t.block = .live r' := by
  refine ⟨⟨by decide, fun r hr => ?_, by simp [State.reset]⟩, rfl, _, _, rfl, rfl⟩
  cases hr
  exact ⟨Nat.le_refl 0, Nat.zero_le _, by decide, fun _ => .inl ⟨noMarker_nil, Nat.zero_le _⟩, fun h => by cases h⟩

theorem test_hyp_NoiseYieldsNothing :
    (liveState [] 0 0 .none).Inv ∧ (∀ chunk ∈ [[0xAD, 0xDE], [0x52]], List.length (α := Byte) chunk ≤ smallCfg.chunkMax) ∧
      NoMarker ([] ++ [[0xAD, 0xDE], [0x52]].flatten) :=
  ⟨inv_empty (by decide) (by decide), by decide, noMarker_of_all (by decide)⟩

theorem test_hyp_ChunkBoundariesDoNotMatter :
    (liveState [] 0 0 .none).Inv ∧ (∀ chunk ∈ [[0xDE], [0xAD]], List.length (α := Byte) chunk ≤ smallCfg.chunkMax) ∧
      (∀ chunk ∈ [[0xDE, 0xAD], []], List.length (α := Byte) chunk ≤ smallCfg.chunkMax) ∧
      [[(0xDE : Byte)], [0xAD]].flatten = [[0xDE, 0xAD], []].flatten :=
  ⟨inv_empty (by decide) (by decide), by decide, by decide, by decide⟩

/-- One accepted and one rejected candidate, with one index left. -/
theorem test_hyp_StreamIsDecodedInOrder :
    (liveState [] 3 0 .none).Inv ∧
      (∀ chunk ∈ [goodFrame.bytes, badTrailer.bytes], chunk.length ≤ smallCfg.chunkMax) ∧
      candidates 32 ([] ++ [goodFrame.bytes, badTrailer.bytes].flatten) = [goodFrame, badTrailer] ∧
      3 + ([goodFrame, badTrailer].filter fun w => w.valid).length ≤ 2 ^ smallCfg.seqWidth :=
  ⟨inv_empty (by decide) (by decide), by decide, by decide, by decide⟩

theorem test_hyp_IndicesAreConsecutive :
    ∃ t, exec (.ingest goodFrame.bytes) (liveState [] 2 0 .none) = .next t := ⟨_, rfl⟩

/-- Both clauses with no index left; the second part has the accumulator of the first clause. -/
theorem test_hyp_ExhaustedSequenceFaults :
    (liveState [] 4 0 .none).cfg.wf = true ∧ goodFrame.bytes.length ≤ smallCfg.chunkMax ∧
      EarliestMarker ([] ++ goodFrame.bytes) 0 ∧ (goodFrame.f14 = 0xBE ∧ goodFrame.f15 = 0xEF) ∧
      EarliestMarker ([] ++ badTrailer.bytes) 0 ∧ ¬ (badTrailer.f14 = 0xBE ∧ badTrailer.f15 = 0xEF) ∧ NoMarker [] ∧
      4 = 2 ^ smallCfg.seqWidth :=
  ⟨by decide, by decide, earliestMarker_of_all (by decide), by decide, earliestMarker_of_all (by decide), by decide,
    noMarker_nil, by decide⟩

theorem test_hyp_StatusOutputsShowState :
    (liveState goodFrame.bytes 4 0 .seqExhausted).Inv ∧ (liveState [] 4 3 .none).Inv :=
  ⟨inv_faulted, inv_empty (by decide) (by decide)⟩

/-- One index left and two frames, so that one event stands and the second frame faults. -/
theorem test_hyp_FaultIsPrecise :
    (liveState [] 3 0 .none).Inv ∧
      ∃ t r', exec (.ingest (goodFrame.bytes ++ goodFrame.bytes)) (liveState [] 3 0 .none) = .next t ∧
        t.block = .live r' ∧ r'.fault ≠ .none := ⟨inv_empty (by decide) (by decide), _, _, rfl, rfl, by decide⟩

theorem test_hyp_FaultStateDropsInput :
    (liveState goodFrame.bytes 4 0 .seqExhausted).cfg.wf = true ∧ FaultCode.seqExhausted ≠ .none ∧
      [(0xDE : Byte), 0xAD].length ≤ smallCfg.chunkMax := by decide

theorem test_hyp_OnlyResetLeavesFault :
    (∃ t, exec .reset (liveState goodFrame.bytes 4 0 .seqExhausted) = .next t) ∧
      ∃ t, exec .idle (liveState goodFrame.bytes 4 0 .seqExhausted) = .next t := ⟨⟨_, rfl⟩, ⟨_, rfl⟩⟩

/-- An operation that changes the block, and one that sets the fault. -/
theorem test_hyp_WhoWritesTheBlock :
    (∃ t, exec (.ingest [1]) (liveState [] 0 0 .none) = .next t ∧ t.block ≠ (liveState [] 0 0 .none).block) ∧
      ∃ t r', exec (.ingest goodFrame.bytes) (liveState [] 4 0 .none) = .next t ∧ t.block = .live r' ∧
        r'.fault ≠ .none := ⟨⟨_, rfl, by decide⟩, _, _, rfl, rfl, by decide⟩

theorem test_hyp_ConfigurationNeverChanges :
    ∃ t, step (State.resetWith fiveCfg [.port 0, .port 0]) = .next t := ⟨_, rfl⟩

theorem test_hyp_IngestFrame :
    (∃ t, exec (.ingest goodFrame.bytes) (liveState [] 0 0 .none) = .next t) ∧
      ∃ t, exec .idle (liveState [] 0 0 .none) = .next t := ⟨⟨_, rfl⟩, ⟨_, rfl⟩⟩

theorem test_hyp_ResetWritesAllState : (State.powerUp smallCfg []).cfg.wf = true := by decide

/-- Two blocks of one configuration that hold different states. -/
theorem test_hyp_ResetFrame :
    (State.powerUp smallCfg []).cfg = (liveState goodFrame.bytes 4 0 .seqExhausted).cfg ∧
      (∃ t, exec .reset (State.powerUp smallCfg []) = .next t) ∧
      ∃ t, exec .reset (liveState goodFrame.bytes 4 0 .seqExhausted) = .next t := ⟨rfl, ⟨_, rfl⟩, ⟨_, rfl⟩⟩

theorem test_hyp_UnresetRefusesAllButReset :
    (State.powerUp smallCfg []).cfg.wf = true ∧ (State.powerUp smallCfg []).block = .unreset := by decide

theorem test_hyp_StepRunsDecodedOperation :
    ∃ s : State, s.inputs = [.port 0x1DE, .port 0] ∧ decode s.cfg (.port 0x1DE) = .ok (.ingest [0xDE]) ∧
      (Instr.ingest [0xDE]).wf s.cfg = true :=
  ⟨State.resetWith Config.hardware [.port 0x1DE, .port 0], rfl, by decide, by decide⟩

theorem test_hyp_NothingPresentedKeepsBlock :
    (State.powerUp smallCfg []).cfg.wf = true ∧ (State.powerUp smallCfg []).inputs = [] := by decide

end Sys2Proof.Tests
end

section
/-! The family 00_scope.md: the parameters of the frame core. -/

namespace Sys2Proof

/-- The Boolean check of a configuration is the conjunction of the constraints of 00_scope.md R8. -/
theorem Config.wf_iff (c : Config) :
    c.wf = true ↔ 1 ≤ c.chunkMax ∧ 2 * c.chunkMax + 29 ≤ c.accCap ∧ 20 ≤ c.outWidth ∧ 1 ≤ c.seqWidth ∧
      c.seqInit < 2 ^ c.seqWidth ∧ 1 ≤ c.rejWidth := by
  simp only [Config.wf, Bool.and_eq_true, decide_eq_true_eq, and_assoc]

/-- Settles O1: the constraints are those of `Config.wf_iff`, where the lower bound of `SEQ_INIT` is the one every
natural number has, and the values taken are the fields of `Config.hardware`. -/
theorem parametersConstrainedAndTaken : Obligations.ParametersConstrainedAndTaken := by
  unfold Obligations.ParametersConstrainedAndTaken
  constructor
  · intro c
    simp only [Config.wf_iff, ge_iff_le, Nat.zero_le, true_and]
  · exact ⟨rfl, rfl, rfl, rfl, rfl, rfl⟩

end Sys2Proof
end

section
/-! The family 30_encoding.md, the byte-serial port: what a 10-bit word selects (R68). -/

namespace Sys2Proof

/-! ### The widths of this hardware's port -/

theorem laneBits_hardware : laneBits Config.hardware = 8 := rfl

theorem countBits_hardware : countBits Config.hardware = 1 := by decide

theorem portBits_hardware : portBits Config.hardware = 10 := by decide

/-- One lane is the low byte of the word. -/
theorem lanes_one (w : Nat) : lanes 1 w = [BitVec.ofNat 8 w] := rfl

/-- The port table of 30_encoding.md R68 in the bits of the word. The count of the general port is one bit here, so it is
never over CHUNK_MAX. -/
theorem decodePort_hardware {w : Nat} (h : w < 2 ^ 10) :
    decodePort Config.hardware w =
      .ok (if w.testBit 9 then .reset
        else if w.testBit 8 then .ingest [BitVec.ofNat 8 w]
        else .idle) := by
  have hmax : ¬ Config.hardware.chunkMax < w / 2 ^ 8 % 2 :=
    Nat.not_lt.mpr (Nat.le_of_lt_succ (Nat.mod_lt _ Nat.two_pos))
  simp only [decodePort, portBits_hardware, countBits_hardware, laneBits_hardware, if_neg (Nat.not_le.mpr h),
    if_neg hmax, pow_one, Nat.testBit_eq_decide_div_mod_eq, decide_eq_true_eq, Nat.reduceAdd]
  by_cases hrst : w / 2 ^ 9 % 2 = 1
  · rw [if_pos hrst, if_pos hrst]
  · rw [if_neg hrst, if_neg hrst]
    rcases Nat.mod_two_eq_zero_or_one (w / 2 ^ 8) with hn | hn
    · rw [hn, if_pos rfl, if_neg Nat.zero_ne_one]
    · rw [hn, if_neg Nat.one_ne_zero, if_pos rfl, lanes_one]

/-- Settles O3: `decodePort_hardware` for the number of the word, and IDLE has the meaning of an INGEST of no bytes
(41_frame_synchronizer.md R117). -/
theorem bytePortWordSelectsOperation : Obligations.BytePortWordSelectsOperation := by
  unfold Obligations.BytePortWordSelectsOperation
  constructor
  · intro w
    exact decodePort_hardware w.isLt
  · intro s
    rw [Machine.exec_idle, Machine.exec_ingest]

end Sys2Proof
end

section
/-! The family 30_encoding.md, the channel fields: a field as a number and its place in the 128-bit view (R61, R63). -/

namespace Sys2Proof

/-- The field as the shifts and ors of 30_encoding.md R63. -/
theorem Machine.rawField_toNat_eq_or (b0 b1 b2 : Byte) :
    (Machine.rawField b0 b1 b2).toNat = (b0.toNat <<< 16) ||| (b1.toNat <<< 8) ||| b2.toNat := by
  rw [Machine.rawField, BitVec.toNat_append, BitVec.toNat_append, Nat.shiftLeft_or_distrib, ← Nat.shiftLeft_add]

/-- Bits above the lowest byte do not see it. -/
theorem extractLsb'_append_byte {v : Nat} (x : BitVec v) (b : Byte) (start len : Nat) :
    (x ++ b).extractLsb' (start + 8) len = x.extractLsb' start len := by
  rw [BitVec.extractLsb'_append_eq_of_le (Nat.le_add_left 8 start), Nat.add_sub_cancel]

/-- The three lowest bytes of a concatenation are the field they make. -/
theorem extractLsb'_append_rawField {v : Nat} (x : BitVec v) (b0 b1 b2 : Byte) :
    (x ++ b0 ++ b1 ++ b2).extractLsb' 0 24 = Machine.rawField b0 b1 b2 := by
  have hassoc : x ++ b0 ++ b1 ++ b2 = (x ++ Machine.rawField b0 b1 b2).cast rfl := by
    rw [Machine.rawField, BitVec.append_assoc', BitVec.append_assoc']
    rfl
  rw [hassoc, BitVec.extractLsb'_cast, BitVec.extractLsb'_append_eq_right]

/-- Settles O6: the number by `rawField_toNat_eq_or`; a field's place by dropping the bytes below it one at a time. -/
theorem channelFieldAssembly : Obligations.ChannelFieldAssembly := by
  unfold Obligations.ChannelFieldAssembly
  refine ⟨Machine.rawField_toNat_eq_or, fun f => ⟨?_, ?_, ?_, ?_⟩⟩ <;>
    simp only [Window.view, extractLsb'_append_byte, extractLsb'_append_rawField]

end Sys2Proof
end

section
/-! The family 30_encoding.md, the frame: the verdict and the row of every window (R66, R72). -/

namespace Sys2Proof

/-- A window as an input selects the row of its verdict (30_encoding.md R72). -/
theorem decode_window_bytes (c : Config) (f : Window) :
    decode c (.window f.bytes) = .ok (if f.valid then .decodeAccept f else .decodeReject f) := by
  simp only [decode, decodeWindowRow, Window.ofBytes_bytes]
  cases f.valid <;> rfl

/-- A window is not valid exactly when its header or its trailer is not the sync word (30_encoding.md R62). -/
theorem Window.valid_eq_false_iff (f : Window) :
    f.valid = false ↔ ¬ (f.f0 = 0xDE ∧ f.f1 = 0xAD) ∨ ¬ (f.f14 = 0xBE ∧ f.f15 = 0xEF) := by
  rw [← Bool.not_eq_true, Window.valid_iff, ← not_and_or, and_assoc]

/-- Settles O8: `valid` decides the verdict (`decodeWindow_cases`) and the row (`decode_window_bytes`). -/
theorem everyWindowHasOneVerdict : Obligations.EveryWindowHasOneVerdict := by
  unfold Obligations.EveryWindowHasOneVerdict
  intro c f
  rw [← f.valid_eq_false_iff, ← f.valid_iff, decode_window_bytes]
  rcases Machine.decodeWindow_cases f with ⟨hv, hd⟩ | ⟨hv, hd⟩
  · simp [hv, hd]
  · simp [hv, hd]

end Sys2Proof
end

section
/-! The family 40_packet_codec.md, the channel field: the shift identity, its closed form and the output word (R84, R85). -/

namespace Sys2Proof.Machine

/-- The low 20 bits of a field as a number. -/
theorem rawField_low20_toNat (b0 b1 b2 : Byte) :
    ((rawField b0 b1 b2).extractLsb' 0 20).toNat = (b0.toNat * 65536 + b1.toNat * 256 + b2.toNat) % 2 ^ 20 := by
  rw [BitVec.extractLsb'_toNat, rawField_toNat, Nat.shiftRight_zero]

/-- The 32-bit container of 40_packet_codec.md R84, with the field shifted left by 12, as a number. -/
theorem container_toNat (b0 b1 b2 : Byte) :
    ((rawField b0 b1 b2).setWidth 32 <<< 12).toNat =
      (b0.toNat * 65536 + b1.toNat * 256 + b2.toNat) * 2 ^ 12 % 2 ^ 32 := by
  rw [BitVec.toNat_shiftLeft, BitVec.toNat_setWidth, rawField_toNat, Nat.shiftLeft_eq, Nat.mod_mul_mod]

/-- The container holds the low 20 bits above twelve zeros, so its signed reading is theirs times 2^12: the reason
40_packet_codec.md R84 gives for the closed form. -/
theorem container_toInt (b0 b1 b2 : Byte) :
    ((rawField b0 b1 b2).setWidth 32 <<< 12).toInt = ((rawField b0 b1 b2).extractLsb' 0 20).toInt * 2 ^ 12 := by
  rw [BitVec.toInt_eq_toNat_cond, BitVec.toInt_eq_toNat_cond, container_toNat, rawField_low20_toNat]
  omega

/-- The value of a field is the two's-complement reading of its low 20 bits (40_packet_codec.md R84). -/
theorem fieldValue_eq_toInt (b0 b1 b2 : Byte) :
    fieldValue b0 b1 b2 = ((rawField b0 b1 b2).extractLsb' 0 20).toInt := by
  rw [fieldValue, asr, container_toInt]
  exact Int.mul_ediv_cancel _ (by decide)

/-- Settles O15: the identity is the definition with the container read as a number (`container_toNat`); the closed form
is the reading of the low 20 bits (`fieldValue_eq_toInt`). -/
theorem fieldValueIsLowTwentyBitsSigned : Obligations.FieldValueIsLowTwentyBitsSigned := by
  unfold Obligations.FieldValueIsLowTwentyBitsSigned
  intro b0 b1 b2 raw t u
  constructor
  · have hu : ((rawField b0 b1 b2).setWidth 32 <<< 12).toInt = u := by
      rw [BitVec.toInt_eq_toNat_cond, container_toNat]
      omega
    rw [fieldValue, asr, hu]
  · rw [fieldValue_eq_toInt, BitVec.toInt_eq_toNat_cond, rawField_low20_toNat]
    omega

/-- Settles O16: a value is the reading of 20 bits, so its word in at least 20 bits is their sign extension; in 32 bits the
definition of the value is the arithmetic shift of the container. -/
theorem outputWordIsSignExtension : Obligations.OutputWordIsSignExtension := by
  unfold Obligations.OutputWordIsSignExtension
  refine ⟨fun w b0 b1 b2 hw => ?_, fun b0 b1 b2 => ?_, by decide, by decide, by decide⟩
  · have hext : outWord w (fieldValue b0 b1 b2) = ((rawField b0 b1 b2).extractLsb' 0 20).signExtend w := by
      rw [fieldValue_eq_toInt, outWord, BitVec.signExtend]
    refine ⟨hext, ?_⟩
    rw [hext, BitVec.toInt_signExtend_of_le hw, fieldValue_eq_toInt]
  · rw [BitVec.sshiftRight, Int.shiftRight_eq_div_pow]
    rfl

end Sys2Proof.Machine
end

section
/-! The family 40_packet_codec.md, `DECODE`: the verdict, the row it selects and the input's length (R81 to R83, R87). -/

namespace Sys2Proof

/-- Bytes other than sixteen make no window (40_packet_codec.md R87). -/
theorem Window.ofBytes_eq_none {l : List Byte} (h : l.length ≠ 16) : Window.ofBytes l = none := by
  rw [Option.eq_none_iff_forall_ne_some]
  intro w hw
  exact h (Window.ofBytes_eq_some.mp hw ▸ w.bytes_length)

namespace Machine

/-! ### The verdict -/

theorem decodeWindow_of_valid {f : Window} (h : f.valid = true) :
    decodeWindow f = .accepted (fieldValue f.f2 f.f3 f.f4) (fieldValue f.f5 f.f6 f.f7) (fieldValue f.f8 f.f9 f.f10)
      (fieldValue f.f11 f.f12 f.f13) := if_pos h

/-- DECODE rejects exactly the windows that are not valid (40_packet_codec.md R81). -/
theorem decodeWindow_eq_rejected_iff (f : Window) : decodeWindow f = .rejected ↔ f.valid = false := by
  rcases decodeWindow_cases f with ⟨hv, hd⟩ | ⟨hv, hd⟩
  · simp [hv, hd]
  · simp [hv, hd]

/-- Settles O12: `Window.valid_iff` and `decodeWindow_eq_rejected_iff`. -/
theorem validChecksBothSyncWords : Obligations.ValidChecksBothSyncWords := by
  unfold Obligations.ValidChecksBothSyncWords
  exact fun f => ⟨f.valid_iff, decodeWindow_eq_rejected_iff f⟩

/-! ### The don't-care nibbles -/

/-- Clearing the high nibble of a byte leaves its remainder modulo 16. -/
theorem and_lowNibble_toNat (b : Byte) : (b &&& 0x0F).toNat = b.toNat % 16 := by
  rw [BitVec.toNat_and]
  exact Nat.and_two_pow_sub_one_eq_mod b.toNat 4

/-- The value of a field ignores the high nibble of its first byte, which lies above its low 20 bits (40_packet_codec.md
R86). -/
theorem fieldValue_and_lowNibble (b0 b1 b2 : Byte) : fieldValue (b0 &&& 0x0F) b1 b2 = fieldValue b0 b1 b2 := by
  have hlow : (rawField (b0 &&& 0x0F) b1 b2).extractLsb' 0 20 = (rawField b0 b1 b2).extractLsb' 0 20 := by
    apply BitVec.eq_of_toNat_eq
    rw [rawField_low20_toNat, rawField_low20_toNat, and_lowNibble_toNat]
    omega
  rw [fieldValue_eq_toInt, fieldValue_eq_toInt, hlow]

/-- The verdict ignores the four don't-care nibbles: no sync word stands in bytes 2 to 13, and no field sees its own
nibble. -/
theorem decodeWindow_clear_nibbles (f : Window) :
    decodeWindow { f with f2 := f.f2 &&& 0x0F, f5 := f.f5 &&& 0x0F, f8 := f.f8 &&& 0x0F, f11 := f.f11 &&& 0x0F } =
      decodeWindow f := by
  simp only [decodeWindow, fieldValue_and_lowNibble]
  rfl

/-! ### The row of a window, executed -/

/-- The row a window selects answers its verdict and changes nothing else (40_packet_codec.md R82, R83). -/
theorem exec_windowRow {s : State} (hwf : s.cfg.wf = true) (f : Window) :
    exec (if f.valid then .decodeAccept f else .decodeReject f) s =
      .next { s with out := { verdict := some (decodeWindow f) } } := by
  cases hv : f.valid with
  | true => exact (guarded_of_wf hwf _).trans (if_pos hv)
  | false => exact (guarded_of_wf hwf _).trans (if_neg (Bool.eq_false_iff.mp hv))

/-- Settles O13: a valid window's row is DECODE.ACCEPT (`decode_window_bytes`), executed by `exec_windowRow`. -/
theorem decodeAcceptCompletes : Obligations.DecodeAcceptCompletes := by
  unfold Obligations.DecodeAcceptCompletes
  refine ⟨fun s f hwf hsync => ?_, decodeWindow_clear_nibbles, by decide⟩
  have hv : f.valid = true := f.valid_iff.mpr hsync
  have hexec := exec_windowRow hwf f
  rw [if_pos hv] at hexec
  rw [decode_window_bytes, if_pos hv]
  exact ⟨rfl, _, hexec, rfl, congrArg some (decodeWindow_of_valid hv)⟩

/-- Settles O14: any other window's row is DECODE.REJECT (`decode_window_bytes`), executed by `exec_windowRow`. -/
theorem decodeRejectCompletes : Obligations.DecodeRejectCompletes := by
  unfold Obligations.DecodeRejectCompletes
  refine ⟨fun s f hwf hsync => ?_, by decide⟩
  have hv : ¬ f.valid = true := mt f.valid_iff.mp hsync
  have hexec := exec_windowRow hwf f
  rw [if_neg hv] at hexec
  rw [decode_window_bytes, if_neg hv]
  exact ⟨rfl, _, hexec, rfl,
    congrArg some ((decodeWindow_eq_rejected_iff f).mpr (Bool.eq_false_iff.mpr hv))⟩

/-! ### One step -/

/-- A step takes the next input and executes the operation it decodes to. -/
theorem step_of_decode_ok {s : State} {x : Input} {rest : List Input} {i : Instr} (hwf : s.cfg.wf = true)
    (hi : s.inputs = x :: rest) (hd : decode s.cfg x = .ok i) : step s = exec i { s with inputs := rest } := by
  simp only [step, guarded_of_wf hwf, hi, hd]

/-- A step refuses an input that decodes to no operation. -/
theorem step_of_decode_error {s : State} {x : Input} {rest : List Input} {e : Reject} (hwf : s.cfg.wf = true)
    (hi : s.inputs = x :: rest) (hd : decode s.cfg x = .error e) :
    step s = refuseInput e { s with inputs := rest } := by
  simp only [step, guarded_of_wf hwf, hi, hd]

/-- Settles O22: any other length is no window (`Window.ofBytes_eq_none`); sixteen bytes are one, and its row answers
(`exec_windowRow`). -/
theorem otherLengthsRefused : Obligations.OtherLengthsRefused := by
  unfold Obligations.OtherLengthsRefused
  intro s bytes rest hwf hi
  constructor
  · intro hlen
    have hd : decode s.cfg (.window bytes) = .error .windowLength := by
      rw [decode, decodeWindowRow, Window.ofBytes_eq_none hlen]
    rw [step_of_decode_error hwf hi hd, refuseInput]
  · intro hlen
    obtain ⟨f, rfl⟩ := Window.exists_of_length hlen
    rw [step_of_decode_ok hwf hi (decode_window_bytes s.cfg f)]
    exact ⟨_, exec_windowRow (s := { s with inputs := rest }) hwf f⟩

end Machine

end Sys2Proof
end

section
/-! The family 40_packet_codec.md, `ENCODE`: the frame of the masked operands (R89). -/

namespace Sys2Proof.Machine

/-- The three bytes of an encoded field are the digits of the operand modulo 2^20 (40_packet_codec.md R89). -/
theorem fieldByte_toNat_eq_emod (x : Int) :
    ((fieldByte0 x).toNat : Int) = x % 2 ^ 20 / 65536 ∧ ((fieldByte1 x).toNat : Int) = x % 2 ^ 20 / 256 % 256 ∧
      ((fieldByte2 x).toNat : Int) = x % 2 ^ 20 % 256 := by
  obtain ⟨h0, h1, h2⟩ := fieldByte_toNat x
  rw [h0, h1, h2, ← mask20_eq x]
  exact ⟨rfl, rfl, rfl⟩

/-- ENCODE answers the frame of its operands and changes nothing else (40_packet_codec.md R89). -/
theorem exec_encode_of_wf {s : State} (hwf : s.cfg.wf = true) (a b c d : Int) :
    exec (.encode a b c d) s = .next { s with out := { frame := some (encodeFrame a b c d) } } :=
  guarded_of_wf hwf _

/-- Settles O18: the frame is `encodeFrame`, and each of its four fields holds the digits of `fieldByte_toNat_eq_emod`. -/
theorem encodeWritesMaskedFields : Obligations.EncodeWritesMaskedFields := by
  unfold Obligations.EncodeWritesMaskedFields
  refine ⟨fun s a b c d hwf => ?_, by decide⟩
  exact ⟨encodeFrame a b c d, _, exec_encode_of_wf hwf a b c d, rfl, rfl, rfl, rfl, rfl, rfl,
    fieldByte_toNat_eq_emod a, fieldByte_toNat_eq_emod b, fieldByte_toNat_eq_emod c, fieldByte_toNat_eq_emod d⟩

end Sys2Proof.Machine
end

section
/-! The family 41_frame_synchronizer.md, the marker scan: its search over positions against the spec's least marker
(R103). -/

namespace Sys2Proof.Machine

/-- The scan answers the earliest marker (41_frame_synchronizer.md R103). -/
theorem scan_eq_some_iff {acc : List Byte} {i : Nat} : scan acc = some i ↔ EarliestMarker acc i := by
  simp only [scan, List.find?_range_eq_some, List.mem_range, Bool.not_eq_true', Bool.eq_false_iff, ne_eq, markerAt_iff,
    EarliestMarker]
  exact ⟨fun ⟨hm, _, hfirst⟩ => ⟨hm, hfirst⟩, fun ⟨hm, hfirst⟩ => ⟨hm, by have := hm.lt; omega, hfirst⟩⟩

/-- The scan answers nothing exactly where no marker stands (41_frame_synchronizer.md R104): the positions it leaves out
have no byte behind them. -/
theorem scan_eq_none_iff {acc : List Byte} : scan acc = none ↔ NoMarker acc := by
  simp only [scan, List.find?_range_eq_none, Bool.not_eq_true', Bool.eq_false_iff, ne_eq, markerAt_iff, NoMarker]
  exact ⟨fun h i hm => h i (by have := hm.lt; omega) hm, fun h i _ => h i⟩

/-- Settles O25: `scan_eq_some_iff` and `scan_eq_none_iff`. -/
theorem scanFindsEarliestMarker : Obligations.ScanFindsEarliestMarker := by
  unfold Obligations.ScanFindsEarliestMarker
  exact fun acc => ⟨fun _ => scan_eq_some_iff, scan_eq_none_iff⟩

end Sys2Proof.Machine
end

section
/-! The family 41_frame_synchronizer.md, INGEST: its preconditions (R101), and its loop as a run of the pseudocode
(R111). -/

namespace Sys2Proof.Machine

/-! ### The preconditions -/

/-- Before the first reset an INGEST is refused (41_frame_synchronizer.md R101). -/
theorem ingestChunk_unreset {chunk : List Byte} {s : State} (hwf : s.cfg.wf = true) (hb : s.block = .unreset) :
    ingestChunk chunk s = .refused .preReset := by
  simp only [ingestChunk, guarded_of_wf hwf, hb]

/-- A chunk over CHUNK_MAX is refused, in the fault state too (41_frame_synchronizer.md R101). -/
theorem ingestChunk_tooLong {chunk : List Byte} {s : State} {r : Regs} (hwf : s.cfg.wf = true)
    (hb : s.block = .live r) (hl : s.cfg.chunkMax < chunk.length) : ingestChunk chunk s = .refused .chunkTooLong := by
  simp only [ingestChunk, guarded_of_wf hwf, hb, if_pos hl]

/-- Settles O24: one lemma for each precondition; the fault drop is `ingestChunk_faulted`. -/
theorem ingestPreconditionsInOrder : Obligations.IngestPreconditionsInOrder := by
  unfold Obligations.IngestPreconditionsInOrder
  intro s chunk hwf
  refine ⟨fun hb => ingestChunk_unreset hwf hb, fun r hb => ⟨fun hl => ingestChunk_tooLong hwf hb hl, fun hl hf => ?_⟩⟩
  exact ⟨{}, ingestChunk_faulted hwf hb hl hf, rfl⟩

/-! ### The loop -/

/-- The loop completes with a run of the pseudocode, when it may make more passes than there are whole windows left
(41_frame_synchronizer.md R111, R112): each extraction takes at least sixteen bytes. -/
theorem ingestLoop_run (c : Config) (fuel : Nat) (r : Regs) (hfuel : r.acc.length / 16 < fuel) :
    ∃ r' es, ingestLoop c fuel r = .ok (r', es) ∧ IngestRun c r es r' := by
  induction fuel generalizing r with
  | zero => omega
  | succ fuel ih =>
    cases hscan : scan r.acc with
    | none => exact ⟨_, _, ingestLoop_of_scan_none fuel hscan, .noMarker (scan_eq_none_iff.mp hscan)⟩
    | some i =>
      have hm : EarliestMarker r.acc i := scan_eq_some_iff.mp hscan
      rcases Nat.lt_or_ge r.acc.length (i + 16) with hl | hl
      · exact ⟨_, _, ingestLoop_of_hold fuel hscan hl, .hold hm hl⟩
      · rw [ingestLoop_of_extract fuel hscan hl]
        obtain ⟨pre, w, rest, ha, rfl, hcases⟩ := extract_cases c hl
        have hrest : rest.length / 16 < fuel := by
          have hlen := congrArg List.length ha
          simp only [List.length_append, Window.bytes_length] at hlen
          omega
        rcases hcases with ⟨hv, hs, he⟩ | ⟨hv, hs, he⟩ | ⟨hv, he⟩
        · obtain ⟨r', es, hloop, hrun⟩ := ih { r with acc := rest, seqNext := r.seqNext + 1 } hrest
          exact ⟨r', _, by simp only [he, hloop], .accept ha hm hv hs hrun⟩
        · exact ⟨enterFault r, [], by simp only [he], .exhausted ha hm hv hs⟩
        · obtain ⟨r', es, hloop, hrun⟩ :=
            ih { r with acc := rest, rejCount := (r.rejCount + 1) % 2 ^ c.rejWidth } hrest
          exact ⟨r', es, by simp only [he, hloop], .reject ha hm hv hrun⟩

/-- An INGEST that is not turned away completes with the events and the tuple of a run of the pseudocode
(41_frame_synchronizer.md R111). -/
theorem exec_ingest_run {s : State} {r : Regs} {chunk : List Byte} (hwf : s.cfg.wf = true) (hb : s.block = .live r)
    (hl : chunk.length ≤ s.cfg.chunkMax) (hf : r.fault = .none) :
    ∃ (r' : Regs) (o : Output), IngestRun s.cfg { r with acc := r.acc ++ chunk } o.events r' ∧
      exec (.ingest chunk) s = .next { s with block := .live r', out := o } := by
  obtain ⟨r', es, hloop, hrun⟩ := ingestLoop_run s.cfg _ { r with acc := r.acc ++ chunk } (Nat.lt_succ_self _)
  have hregs : ingestRegs s.cfg r chunk = .ok (r', es) := hloop
  refine ⟨r', { events := es }, hrun, ?_⟩
  rw [exec_ingest, ingestChunk_live hwf hb hl hf, hregs]
  rfl

/-- Settles O26: the preconditions are O24's, and the loop is `exec_ingest_run`. -/
theorem ingestRunsPseudocode : Obligations.IngestRunsPseudocode := by
  unfold Obligations.IngestRunsPseudocode
  intro s chunk hwf
  obtain ⟨hunreset, hlive⟩ := ingestPreconditionsInOrder s chunk hwf
  refine ⟨hunreset, fun r hb => ?_⟩
  obtain ⟨hlong, hdrop⟩ := hlive r hb
  exact ⟨hlong, hdrop, fun hl hf => exec_ingest_run hwf hb hl hf⟩

end Sys2Proof.Machine
end

section
/-! The family 41_frame_synchronizer.md, the two ways a pass ends the loop without a whole candidate: the trim (R110)
and the held partial frame (R105). -/

namespace Sys2Proof.Machine

/-- Where no marker stands the pseudocode trims and stops (41_frame_synchronizer.md R110). -/
theorem ingestRun_iff_of_noMarker {c : Config} {r r' : Regs} {es : List Sample} (hn : NoMarker r.acc) :
    IngestRun c r es r' ↔ es = [] ∧ r' = { r with acc := last16 r.acc } := by
  constructor
  · intro h
    cases h with
    | noMarker => exact ⟨rfl, rfl⟩
    | hold hm => exact absurd hm.1 (hn _)
    | accept _ hm => exact absurd hm.1 (hn _)
    | reject _ hm => exact absurd hm.1 (hn _)
    | exhausted _ hm => exact absurd hm.1 (hn _)
  · rintro ⟨rfl, rfl⟩
    exact .noMarker hn

/-- A whole window behind the earliest marker leaves no room for a partial frame. -/
theorem EarliestMarker.add_sixteen_le {acc pre rest : List Byte} {w : Window} {i : Nat} (hi : EarliestMarker acc i)
    (ha : acc = pre ++ w.bytes ++ rest) (hm : EarliestMarker acc pre.length) : i + 16 ≤ acc.length := by
  have hlen := congrArg List.length ha
  simp only [List.length_append, Window.bytes_length] at hlen
  have heq := hi.unique hm
  omega

/-- Where the earliest marker's frame is not complete the pseudocode changes nothing and stops
(41_frame_synchronizer.md R105). -/
theorem ingestRun_iff_of_hold {c : Config} {r r' : Regs} {es : List Sample} {i : Nat} (hi : EarliestMarker r.acc i)
    (hl : r.acc.length < i + 16) : IngestRun c r es r' ↔ es = [] ∧ r' = r := by
  constructor
  · intro h
    cases h with
    | noMarker hn => exact absurd hi.1 (hn i)
    | hold => exact ⟨rfl, rfl⟩
    | accept ha hm => exact absurd (hi.add_sixteen_le ha hm) (Nat.not_le.mpr hl)
    | reject ha hm => exact absurd (hi.add_sixteen_le ha hm) (Nat.not_le.mpr hl)
    | exhausted ha hm => exact absurd (hi.add_sixteen_le ha hm) (Nat.not_le.mpr hl)
  · rintro ⟨rfl, rfl⟩
    exact .hold hi hl

/-- `suffix(acc, 16)` is the one suffix of that length (00_scope.md R11). -/
theorem eq_last16_iff {acc kept : List Byte} :
    kept = last16 acc ↔ kept <:+ acc ∧ kept.length = min 16 acc.length := by
  constructor
  · rintro rfl
    exact accKeepSuffix_spec acc 16
  · rintro ⟨hsuffix, hlen⟩
    rw [List.suffix_iff_eq_drop.mp hsuffix, hlen, last16]
    congr 1
    omega

/-- Settles O28: the pass is `ingestRun_iff_of_noMarker`, with `last16` as the suffix of its length; the machine's
INGEST is such a run (`exec_ingest_run`). -/
theorem noMarkerTrimsToSixteen : Obligations.NoMarkerTrimsToSixteen := by
  unfold Obligations.NoMarkerTrimsToSixteen
  constructor
  · intro s r chunk hwf hb hf hl hn
    obtain ⟨r', o, hrun, hexec⟩ := exec_ingest_run hwf hb hl hf
    obtain ⟨hevents, rfl⟩ := (ingestRun_iff_of_noMarker hn).mp hrun
    exact ⟨_, o, hexec, hevents, eq_last16_iff.mp rfl⟩
  · intro c r r' es hn
    simp only [ingestRun_iff_of_noMarker hn, ← eq_last16_iff, exists_eq_right]

/-- Settles O29: the pass is `ingestRun_iff_of_hold`; the machine's INGEST is such a run (`exec_ingest_run`). -/
theorem incompleteFrameIsHeld : Obligations.IncompleteFrameIsHeld := by
  unfold Obligations.IncompleteFrameIsHeld
  constructor
  · intro s r chunk i hwf hb hf hl hi hshort
    obtain ⟨r', o, hrun, hexec⟩ := exec_ingest_run hwf hb hl hf
    obtain ⟨hevents, rfl⟩ := (ingestRun_iff_of_hold hi hshort).mp hrun
    exact ⟨o, hexec, hevents⟩
  · exact fun c r r' es i hi hshort => ingestRun_iff_of_hold hi hshort

end Sys2Proof.Machine
end

section
/-! The family 42_outputs_and_sequencing.md, a rejected candidate: counted, dropped, and no event (R133). -/

namespace Sys2Proof.Machine

/-- A list and its earliest marker fix the candidate that starts there and the bytes behind it. -/
theorem candidate_unique {acc pre pre' rest rest' : List Byte} {w w' : Window} (ha : acc = pre ++ w.bytes ++ rest)
    (hm : EarliestMarker acc pre.length) (ha' : acc = pre' ++ w'.bytes ++ rest')
    (hm' : EarliestMarker acc pre'.length) : w' = w ∧ rest' = rest := by
  have hsplit : pre' ++ w'.bytes ++ rest' = pre ++ w.bytes ++ rest := ha'.symm.trans ha
  have hlen : (pre' ++ w'.bytes).length = (pre ++ w.bytes).length := by
    simp only [List.length_append, Window.bytes_length, hm'.unique hm]
  obtain ⟨hfront, hrest⟩ := List.append_inj hsplit hlen
  obtain ⟨-, hbytes⟩ := List.append_inj hfront (hm'.unique hm)
  refine ⟨?_, hrest⟩
  rw [← Option.some_inj, ← Window.ofBytes_bytes, hbytes, Window.ofBytes_bytes]

/-- Where the earliest marker begins a whole window that is not valid, the pseudocode counts it and goes on behind it
(41_frame_synchronizer.md R108, 42_outputs_and_sequencing.md R133). -/
theorem ingestRun_iff_of_reject {c : Config} {r r' : Regs} {es : List Sample} {pre rest : List Byte} {w : Window}
    (ha : r.acc = pre ++ w.bytes ++ rest) (hm : EarliestMarker r.acc pre.length) (hv : w.valid = false) :
    IngestRun c r es r' ↔
      IngestRun c { r with acc := rest, rejCount := (r.rejCount + 1) % 2 ^ c.rejWidth } es r' := by
  constructor
  · intro h
    cases h with
    | noMarker hn => exact absurd hm.1 (hn _)
    | hold hi hl => exact absurd (hi.add_sixteen_le ha hm) (Nat.not_le.mpr hl)
    | accept ha' hm' hv' =>
      obtain ⟨rfl, -⟩ := candidate_unique ha hm ha' hm'
      exact absurd hv' (Bool.eq_false_iff.mp hv)
    | reject ha' hm' _ hrun =>
      obtain ⟨-, rfl⟩ := candidate_unique ha hm ha' hm'
      exact hrun
    | exhausted ha' hm' hv' =>
      obtain ⟨rfl, -⟩ := candidate_unique ha hm ha' hm'
      exact absurd hv' (Bool.eq_false_iff.mp hv)
  · exact .reject ha hm hv

/-- A DECODE.REJECT on its own counts nothing: the block stays as it is (42_outputs_and_sequencing.md R133). -/
theorem exec_decodeReject_block {f : Window} {s t : State} (h : exec (.decodeReject f) s = .next t) :
    t.block = s.block := by
  obtain ⟨-, ⟨chunk, hingest, -⟩ | ⟨hreset, -⟩ | ⟨verdict, frame, rfl⟩⟩ := exec_next h
  · simp at hingest
  · cases hreset
  · rfl

/-- Settles O31: the pass is `ingestRun_iff_of_reject`, a bad trailer being enough for a window that is not valid; the
machine's INGEST is such a run (`exec_ingest_run`), which ends with the trim of `ingestRun_iff_of_noMarker`. -/
theorem rejectedCandidateIsCounted : Obligations.RejectedCandidateIsCounted := by
  unfold Obligations.RejectedCandidateIsCounted
  refine ⟨?_, ?_, fun s t f => exec_decodeReject_block⟩
  · intro s r chunk pre rest w hwf hb hf hl ha hm htrailer hn
    have hv : w.valid = false := w.valid_eq_false_iff.mpr (.inr htrailer)
    obtain ⟨r', o, hrun, hexec⟩ := exec_ingest_run hwf hb hl hf
    obtain ⟨hevents, rfl⟩ := (ingestRun_iff_of_noMarker hn).mp ((ingestRun_iff_of_reject ha hm hv).mp hrun)
    exact ⟨o, hexec, hevents⟩
  · intro c r r' es pre rest w ha hm htrailer
    exact ingestRun_iff_of_reject ha hm (w.valid_eq_false_iff.mpr (.inr htrailer))

end Sys2Proof.Machine
end

section
/-! The family 60_exceptions.md, the fault state: what it drops (R154), and that RESET alone leaves it (R155). -/

namespace Sys2Proof.Machine

/-! ### The fault state is left by RESET alone -/

/-- In the fault state every operation but RESET leaves the block as it was (60_exceptions.md R154, R155). -/
theorem exec_block_of_faulted {i : Instr} {s t : State} {r : Regs} (hb : s.block = .live r) (hf : r.fault ≠ .none)
    (hi : i ≠ .reset) (h : exec i s = .next t) : t.block = s.block := by
  obtain ⟨-, ⟨chunk, -, hingest⟩ | ⟨hreset, -⟩ | ⟨verdict, frame, rfl⟩⟩ := exec_next h
  · obtain ⟨-, r', hb', -, ⟨-, rfl⟩ | ⟨hnone, -⟩⟩ := ingestChunk_next hingest
    · rfl
    · have hr : r = r' := Block.live.inj (hb.symm.trans hb')
      exact absurd hnone (hr ▸ hf)
  · exact absurd hreset hi
  · rfl

/-- RESET writes the values of 10_state.md R31 into the tuple and clears the output (70_reset_and_hazards.md R170). -/
theorem exec_reset_next {s t : State} (h : exec .reset s = .next t) :
    t = { s with block := .live (Regs.reset s.cfg), out := {} } := by
  obtain ⟨-, hnext⟩ := guarded_eq_next.mp h
  exact (Host.Outcome.next.inj hnext).symm

/-- Settles O49: `exec_block_of_faulted` for every operation but RESET, and `exec_reset_next` for RESET. -/
theorem onlyResetLeavesFault : Obligations.OnlyResetLeavesFault := by
  unfold Obligations.OnlyResetLeavesFault
  intro i s t r hb hf h
  constructor
  · exact fun hi => exec_block_of_faulted hb hf hi h
  · rintro rfl
    rw [exec_reset_next h]
    rfl

/-! ### The fault state drops the input -/

/-- A live block of a well-formed configuration shows its tuple's status outputs (10_state.md R29). -/
theorem readStatus_live {s : State} {r : Regs} (hwf : s.cfg.wf = true) (hb : s.block = .live r) :
    readStatus s = .ok (statusOf s.cfg r) := by
  simp only [readStatus, if_pos hwf, hb]

/-- `fault_o` is 1 exactly in the fault state (10_state.md R25, R29). -/
theorem statusOf_faultO_eq_one_iff (c : Config) (r : Regs) : (statusOf c r).faultO = 1 ↔ r.fault ≠ .none := by
  cases hf : r.fault <;> simp [statusOf, faultCode, hf]

/-- Settles O48: INGEST and its empty chunk, IDLE, are dropped by `ingestChunk_faulted`, and the status outputs show the
tuple (`readStatus_live`), which stays. -/
theorem faultStateDropsInput : Obligations.FaultStateDropsInput := by
  unfold Obligations.FaultStateDropsInput
  intro s r chunk hwf hb hf hl
  exact ⟨{}, statusOf s.cfg r, rfl, ingestChunk_faulted hwf hb hl hf, ingestChunk_faulted hwf hb (Nat.zero_le _) hf,
    readStatus_live hwf hb, readStatus_live (s := { s with out := {} }) hwf hb, (statusOf_faultO_eq_one_iff _ _).mpr hf⟩

end Sys2Proof.Machine
end

section
/-! The family 70_reset_and_hazards.md: RESET completes in every state (R170), and what is refused before the first one
(R171). -/

namespace Sys2Proof.Machine

/-- RESET of a well-formed configuration completes whatever the block holds, with the values of 10_state.md R31
(70_reset_and_hazards.md R170): its meaning does not look at the block. -/
theorem exec_reset_of_wf {s : State} (hwf : s.cfg.wf = true) :
    exec .reset s = .next { s with block := .live (Regs.reset s.cfg), out := {} } :=
  guarded_of_wf hwf _

/-- Before the first reset the status outputs have no value to read (70_reset_and_hazards.md R171). -/
theorem readStatus_unreset {s : State} (hwf : s.cfg.wf = true) (hb : s.block = .unreset) :
    readStatus s = .error .preReset := by
  simp only [readStatus, if_pos hwf, hb]

/-- Settles O53: `exec_reset_of_wf`, with the empty output record. -/
theorem resetWritesAllState : Obligations.ResetWritesAllState := by
  unfold Obligations.ResetWritesAllState
  exact fun s hwf => ⟨{}, exec_reset_of_wf hwf, rfl⟩

/-- Settles O55: `exec_reset_of_wf` for RESET, `ingestChunk_unreset` for INGEST and its empty chunk, IDLE, and
`readStatus_unreset` for the status outputs. -/
theorem unresetRefusesAllButReset : Obligations.UnresetRefusesAllButReset := by
  unfold Obligations.UnresetRefusesAllButReset
  intro s chunk hwf hb
  exact ⟨⟨_, exec_reset_of_wf hwf, rfl⟩, ingestChunk_unreset hwf hb, ingestChunk_unreset hwf hb,
    readStatus_unreset hwf hb⟩

end Sys2Proof.Machine
end

section
/-! The family 30_encoding.md, the port of any CHUNK_MAX: the operation a word selects (R69), and the decoder as the
inverse of the encoder (R72). -/

namespace Sys2Proof

/-! ### The byte lanes -/

/-- `lanesWord` is the fold that 30_encoding.md R69 writes out. -/
theorem foldr_eq_lanesWord (bs : List Byte) : bs.foldr (fun b acc => b.toNat + 256 * acc) 0 = lanesWord bs := by
  induction bs with
  | nil => rfl
  | cons b bs ih => rw [List.foldr_cons, ih, lanesWord]

theorem lanesWord_replicate_zero (k : Nat) : lanesWord (List.replicate k 0) = 0 := by
  induction k with
  | zero => rfl
  | succ k ih =>
    rw [List.replicate_succ, lanesWord, ih]
    rfl

/-- Lanes of 0 behind a chunk do not change the number. -/
theorem lanesWord_append_replicate_zero (bs : List Byte) (k : Nat) :
    lanesWord (bs ++ List.replicate k 0) = lanesWord bs := by
  induction bs with
  | nil => exact lanesWord_replicate_zero k
  | cons b bs ih => rw [List.cons_append, lanesWord, ih, lanesWord]

/-- The first lanes of a number are the first bytes it was made from, whatever stands above them. -/
theorem lanes_lanesWord_add (bs : List Byte) (high : Nat) {n : Nat} (hn : n ≤ bs.length) :
    lanes n (lanesWord bs + high * 2 ^ (8 * bs.length)) = bs.take n := by
  induction bs generalizing n with
  | nil =>
    obtain rfl : n = 0 := Nat.le_zero.mp hn
    rfl
  | cons b bs ih =>
    cases n with
    | zero => rfl
    | succ n =>
      have hsplit : lanesWord (b :: bs) + high * 2 ^ (8 * (b :: bs).length) =
          b.toNat + 256 * (lanesWord bs + high * 2 ^ (8 * bs.length)) := by
        rw [lanesWord, List.length_cons, Nat.mul_succ, Nat.pow_add]
        ring
      have hb : b.toNat < 256 := b.isLt
      have hlow : BitVec.ofNat 8 (b.toNat + 256 * (lanesWord bs + high * 2 ^ (8 * bs.length))) = b := by
        apply BitVec.eq_of_toNat_eq
        rw [BitVec.toNat_ofNat]
        omega
      rw [hsplit, lanes, hlow, Nat.add_mul_div_left _ _ (by decide : 0 < 256), Nat.div_eq_of_lt hb, Nat.zero_add,
        ih (Nat.le_of_succ_le_succ hn), List.take_succ_cons]

/-! ### The port word -/

/-- The three fields of a port word as one nested number. -/
theorem portWord_eq (c : Config) (rst : Bool) (n w : Nat) :
    portWord c rst n w = (rst.toNat * 2 ^ countBits c + n) * 2 ^ laneBits c + w := by
  rw [portWord, Nat.pow_add]
  ring

/-- What the decoder answers for a word of three fields that fit (30_encoding.md R69). -/
theorem decodePort_portWord {c : Config} {rst : Bool} {n w : Nat} (hn : n < 2 ^ countBits c) (hw : w < 2 ^ laneBits c) :
    decodePort c (portWord c rst n w) =
      if rst then .ok .reset
      else if c.chunkMax < n then .error (.countTooLong n)
      else if n = 0 then .ok .idle
      else .ok (.ingest (lanes n (portWord c rst n w))) := by
  have hhigh : portWord c rst n w / 2 ^ laneBits c = rst.toNat * 2 ^ countBits c + n := by
    rw [portWord_eq, Nat.mul_comm, Nat.mul_add_div (Nat.two_pow_pos _), Nat.div_eq_of_lt hw, Nat.add_zero]
  have hrst : portWord c rst n w / 2 ^ (countBits c + laneBits c) = rst.toNat := by
    rw [Nat.add_comm, Nat.pow_add, ← Nat.div_div_eq_div_mul, hhigh, Nat.mul_comm,
      Nat.mul_add_div (Nat.two_pow_pos _), Nat.div_eq_of_lt hn, Nat.add_zero]
  have hcount : portWord c rst n w / 2 ^ laneBits c % 2 ^ countBits c = n := by
    rw [hhigh, Nat.mul_add_mod_self_right, Nat.mod_eq_of_lt hn]
  have hfits : ¬ 2 ^ portBits c ≤ portWord c rst n w := by
    have hlt : portWord c rst n w / 2 ^ (countBits c + laneBits c) < 2 :=
      hrst ▸ Nat.lt_succ_of_le (Bool.toNat_le rst)
    rw [Nat.div_lt_iff_lt_mul (Nat.two_pow_pos _)] at hlt
    rwa [Nat.not_le, portBits, Nat.add_assoc, Nat.pow_add, pow_one]
  simp only [decodePort, if_neg hfits, hrst, hcount]
  cases rst <;> rfl

/-- The operation that a word with one byte in every lane selects: its first `in_count` lanes are the chunk. -/
theorem decodePort_lanesWord {c : Config} (rst : Bool) {n : Nat} {bs : List Byte} (hlen : bs.length = c.chunkMax)
    (hn : n < 2 ^ countBits c) :
    decodePort c (portWord c rst n (lanesWord bs)) =
      if rst then .ok .reset
      else if c.chunkMax < n then .error (.countTooLong n)
      else if n = 0 then .ok .idle
      else .ok (.ingest (bs.take n)) := by
  have hbits : laneBits c = 8 * bs.length := by rw [hlen, laneBits]
  rw [decodePort_portWord hn (hbits ▸ Laws.lanesWord_lt bs)]
  by_cases hmax : c.chunkMax < n
  · rw [if_pos hmax, if_pos hmax]
  · rw [portWord_eq, Nat.add_comm, hbits, lanes_lanesWord_add bs _ (hlen ▸ Nat.not_lt.mp hmax)]

/-- Settles O4: the word written out is the port word of the lanes (`foldr_eq_lanesWord`), which `decodePort_lanesWord`
reads. -/
theorem widePortWordSelectsOperation : Obligations.WidePortWordSelectsOperation := by
  unfold Obligations.WidePortWordSelectsOperation
  intro c rst n inBytes _ hlen hn
  rw [foldr_eq_lanesWord]
  exact decodePort_lanesWord rst hlen hn

/-- A chunk that the lanes hold reads as the first lanes of its word, the lanes behind it being 0. -/
theorem decodePort_chunk {c : Config} (rst : Bool) {chunk : List Byte} (hl : chunk.length ≤ c.chunkMax) :
    decodePort c (portWord c rst chunk.length (lanesWord chunk)) =
      if rst then .ok .reset else if chunk.length = 0 then .ok .idle else .ok (.ingest chunk) := by
  have hlen : (chunk ++ List.replicate (c.chunkMax - chunk.length) (0 : Byte)).length = c.chunkMax := by
    rw [List.length_append, List.length_replicate]
    omega
  rw [← lanesWord_append_replicate_zero chunk (c.chunkMax - chunk.length),
    decodePort_lanesWord rst hlen (Nat.lt_of_le_of_lt hl (Laws.chunkMax_lt_count c)), if_neg (Nat.not_lt.mpr hl),
    List.take_left]

/-- Settles O10, operation by operation: the port's by `decodePort_chunk`, a window's row by `decode_window_bytes`, and
ENCODE's operands are carried as they are. -/
theorem decodeUndoesEncode : Obligations.DecodeUndoesEncode := by
  unfold Obligations.DecodeUndoesEncode
  intro c i _ hi
  cases i with
  | reset => exact decodePort_chunk true (chunk := []) (Nat.zero_le _)
  | ingest chunk =>
    obtain ⟨hne, hl⟩ := (Bool.and_eq_true _ _).mp hi
    have hlen : ¬ chunk.length = 0 := fun h => of_decide_eq_true hne (List.length_eq_zero_iff.mp h)
    exact (decodePort_chunk false (of_decide_eq_true hl)).trans (if_neg hlen)
  | idle => exact decodePort_chunk false (chunk := []) (Nat.zero_le _)
  | decodeAccept f => exact (decode_window_bytes c f).trans (congrArg _ (if_pos hi))
  | decodeReject f =>
    exact (decode_window_bytes c f).trans (congrArg _ (if_neg (Bool.eq_false_iff.mp (Bool.not_eq_true' _ ▸ hi))))
  | encode a b cc d => rfl

end Sys2Proof
end

section
/-! The family 30_encoding.md, the 128-bit view of a window (R61) and the words of the opcode table (R72). -/

namespace Sys2Proof

/-- The window whose 128-bit view is a given word, byte 0 the most significant (30_encoding.md R61). -/
def Window.ofView (w : BitVec 128) : Window :=
  { f0 := w.extractLsb' 120 8, f1 := w.extractLsb' 112 8, f2 := w.extractLsb' 104 8, f3 := w.extractLsb' 96 8
    f4 := w.extractLsb' 88 8, f5 := w.extractLsb' 80 8, f6 := w.extractLsb' 72 8, f7 := w.extractLsb' 64 8
    f8 := w.extractLsb' 56 8, f9 := w.extractLsb' 48 8, f10 := w.extractLsb' 40 8, f11 := w.extractLsb' 32 8
    f12 := w.extractLsb' 24 8, f13 := w.extractLsb' 16 8, f14 := w.extractLsb' 8 8, f15 := w.extractLsb' 0 8 }

/-- Its bytes are those the table numbers, from the highest down. -/
theorem Window.ofView_bytes (w : BitVec 128) : (Window.ofView w).bytes = bytesOfView 16 w.toNat := rfl

/-- A byte and the bits above it join to the bits they were taken from. -/
theorem extractLsb'_append_extractLsb'_byte {v : Nat} (w : BitVec v) (start len : Nat) :
    w.extractLsb' (start + 8) len ++ w.extractLsb' start 8 = w.extractLsb' start (len + 8) :=
  BitVec.extractLsb'_append_extractLsb'_eq_extractLsb' rfl

/-- Its view is the word: neighbouring bytes join to the bits they were taken from. -/
theorem Window.ofView_view (w : BitVec 128) : (Window.ofView w).view = w := by
  simp only [Window.view, Window.ofView, extractLsb'_append_extractLsb'_byte w]
  exact BitVec.extractLsb'_eq_self

/-- Sixteen bits are two given bytes exactly when each half is its byte. -/
theorem extractLsb'_sixteen_eq_append_iff {v : Nat} (w : BitVec v) (start : Nat) (hi lo : Byte) :
    w.extractLsb' start 16 = hi ++ lo ↔ w.extractLsb' (start + 8) 8 = hi ∧ w.extractLsb' start 8 = lo := by
  have hsplit : w.extractLsb' start 16 = w.extractLsb' (start + 8) 8 ++ w.extractLsb' start 8 :=
    (extractLsb'_append_extractLsb'_byte w start 8).symm
  rw [hsplit]
  constructor
  · intro h
    have hhi := congrArg (BitVec.extractLsb' 8 8) h
    have hlo := congrArg (BitVec.extractLsb' 0 8) h
    rw [extractLsb'_append_byte _ _ 0, extractLsb'_append_byte _ _ 0, BitVec.extractLsb'_eq_self,
      BitVec.extractLsb'_eq_self] at hhi
    rw [BitVec.extractLsb'_append_eq_right, BitVec.extractLsb'_append_eq_right] at hlo
    exact ⟨hhi, hlo⟩
  · rintro ⟨rfl, rfl⟩
    rfl

/-- Settles O7: the window is `Window.ofView`, and its sync words are the halves of the word's two ends. -/
theorem tableWordIsTheWindowsView : Obligations.TableWordIsTheWindowsView := by
  unfold Obligations.TableWordIsTheWindowsView
  intro w
  refine ⟨Window.ofView w, congrArg Input.window (Window.ofView_bytes w).symm, Window.ofView_view w, rfl, rfl, ?_⟩
  rw [Window.valid_iff, ← and_assoc]
  exact and_congr (extractLsb'_sixteen_eq_append_iff w 112 0xDE 0xAD).symm
    (extractLsb'_sixteen_eq_append_iff w 0 0xBE 0xEF).symm

/-- Settles O9: the decoder of table words evaluates on each of the seven words. -/
theorem tableWordsReadAsTheirRows : Obligations.TableWordsReadAsTheirRows := by
  unfold Obligations.TableWordsReadAsTheirRows
  exact ⟨by decide, by decide, by decide, by decide, by decide, by decide, by decide⟩

end Sys2Proof
end

section
/-! The family 30_encoding.md, the event format: the fields of an event's bits (R70). -/

namespace Sys2Proof.Machine

/-- A word of at least 20 bits reads as the channel value it was made from (40_packet_codec.md R85). -/
theorem outWord_toInt {w : Nat} (hw : 20 ≤ w) {v : Int} (hv : ChannelRange v) : (outWord w v).toInt = v := by
  have hpow : (2 : Int) ^ 19 ≤ 2 ^ (w - 1) := pow_le_pow_right₀ (by decide) (by omega)
  obtain ⟨hlow, hhigh⟩ := hv
  exact BitVec.toInt_ofInt_eq_self (by omega) (by omega) (by omega)

/-- Bits above the lowest part of a concatenation do not see it. -/
theorem extractLsb'_add_append {v w : Nat} (x : BitVec v) (y : BitVec w) (start len : Nat) :
    (x ++ y).extractLsb' (start + w) len = x.extractLsb' start len := by
  rw [BitVec.extractLsb'_append_eq_of_le (Nat.le_add_left w start), Nat.add_sub_cancel]

/-- The five fields of an event's bits, the index in the highest place (30_encoding.md R70). -/
theorem Sample.word_fields (c : Config) (e : Sample) :
    (e.word c).extractLsb' (4 * c.outWidth) c.seqWidth = BitVec.ofNat c.seqWidth e.seq ∧
      (e.word c).extractLsb' (3 * c.outWidth) c.outWidth = outWord c.outWidth e.a ∧
      (e.word c).extractLsb' (2 * c.outWidth) c.outWidth = outWord c.outWidth e.b ∧
      (e.word c).extractLsb' c.outWidth c.outWidth = outWord c.outWidth e.c ∧
      (e.word c).extractLsb' 0 c.outWidth = outWord c.outWidth e.d := by
  have h1 : c.outWidth = 0 + c.outWidth := by omega
  have h2 : 2 * c.outWidth = 0 + c.outWidth + c.outWidth := by omega
  have h3 : 3 * c.outWidth = 0 + c.outWidth + c.outWidth + c.outWidth := by omega
  have h4 : 4 * c.outWidth = 0 + c.outWidth + c.outWidth + c.outWidth + c.outWidth := by omega
  refine ⟨?_, ?_, ?_, ?_, BitVec.extractLsb'_append_eq_right⟩
  · rw [h4, Sample.word]
    simp only [extractLsb'_add_append, BitVec.extractLsb'_eq_self]
  · rw [h3, Sample.word]
    simp only [extractLsb'_add_append, BitVec.extractLsb'_append_eq_right]
  · rw [h2, Sample.word]
    simp only [extractLsb'_add_append, BitVec.extractLsb'_append_eq_right]
  · have h := extractLsb'_add_append
      (BitVec.ofNat c.seqWidth e.seq ++ outWord c.outWidth e.a ++ outWord c.outWidth e.b ++ outWord c.outWidth e.c)
      (outWord c.outWidth e.d) 0 c.outWidth
    rw [Nat.zero_add] at h
    exact h.trans BitVec.extractLsb'_append_eq_right

/-- Settles O11: the fields by `Sample.word_fields`, read back within the ranges of the event's invariant. -/
theorem sampleEventFields : Obligations.SampleEventFields := by
  unfold Obligations.SampleEventFields
  intro c e hwf ⟨hseq, ha, hb, hc, hd⟩
  obtain ⟨-, -, hout, -⟩ := c.wf_iff.mp hwf
  obtain ⟨fseq, fa, fb, fc, fd⟩ := e.word_fields c
  rw [fseq, fa, fb, fc, fd, BitVec.toNat_ofNat]
  exact ⟨Nat.mod_eq_of_lt hseq, outWord_toInt hout ha, outWord_toInt hout hb, outWord_toInt hout hc,
    outWord_toInt hout hd⟩

end Sys2Proof.Machine
end

section
/-! The family 40_packet_codec.md, the laws of a channel value: its range, the fields it comes from, and the round trips
of `ENCODE` and `DECODE`. -/

namespace Sys2Proof.Machine

/-! ### One field -/

/-- A field value is congruent to its field modulo 2^20 (40_packet_codec.md R84). -/
theorem fieldValue_emod (b0 b1 b2 : Byte) :
    fieldValue b0 b1 b2 % 2 ^ 20 = ((b0.toNat * 65536 + b1.toNat * 256 + b2.toNat : Nat) : Int) % 2 ^ 20 := by
  rw [fieldValue_eq_toInt, BitVec.toInt_eq_toNat_cond, rawField_low20_toNat]
  omega

/-- A field value is a channel value: the signed reading of 20 bits (40_packet_codec.md R86). -/
theorem fieldValue_range (b0 b1 b2 : Byte) : ChannelRange (fieldValue b0 b1 b2) := by
  rw [fieldValue_eq_toInt]
  exact ⟨BitVec.le_toInt _, Int.le_of_lt_add_one BitVec.toInt_lt⟩

/-- Two channel values congruent modulo 2^20 are one. -/
theorem ChannelRange.eq_of_emod_eq {u v : Int} (hu : ChannelRange u) (hv : ChannelRange v)
    (h : u % 2 ^ 20 = v % 2 ^ 20) : u = v := by
  unfold ChannelRange at hu hv
  omega

/-- The fields a channel value comes from: the bytes of its mask, under any top nibble (40_packet_codec.md R86). -/
theorem fieldValue_eq_iff {v : Int} (hv : ChannelRange v) (b0 b1 b2 : Byte) :
    fieldValue b0 b1 b2 = v ↔ b0 &&& 0x0F = fieldByte0 v ∧ b1 = fieldByte1 v ∧ b2 = fieldByte2 v := by
  have hdigits : fieldValue b0 b1 b2 = v ↔
      ((b0.toNat * 65536 + b1.toNat * 256 + b2.toNat : Nat) : Int) % 2 ^ 20 = v % 2 ^ 20 := by
    rw [← fieldValue_emod]
    exact ⟨fun h => h ▸ rfl, (fieldValue_range b0 b1 b2).eq_of_emod_eq hv⟩
  obtain ⟨h0, h1, h2⟩ := fieldByte_toNat_eq_emod v
  have hb1 := b1.isLt
  have hb2 := b2.isLt
  rw [hdigits, ← BitVec.toNat_inj, ← BitVec.toNat_inj, ← BitVec.toNat_inj, and_lowNibble_toNat]
  omega

/-- The field that `ENCODE` writes reads as a value congruent to the operand modulo 2^20 (40_packet_codec.md R91). -/
theorem fieldValue_fieldBytes_emod (x : Int) :
    fieldValue (fieldByte0 x) (fieldByte1 x) (fieldByte2 x) % 2 ^ 20 = x % 2 ^ 20 := by
  obtain ⟨h0, h1, h2⟩ := fieldByte_toNat_eq_emod x
  rw [fieldValue_emod]
  omega

/-- In range the field that `ENCODE` writes reads as the operand (40_packet_codec.md R90). -/
theorem fieldValue_fieldBytes {x : Int} (hx : ChannelRange x) :
    fieldValue (fieldByte0 x) (fieldByte1 x) (fieldByte2 x) = x :=
  (fieldValue_range _ _ _).eq_of_emod_eq hx (fieldValue_fieldBytes_emod x)

/-- Settles O17: `fieldValue_range` and `fieldValue_and_lowNibble`; the one low 20-bit pattern of a value is the one
that `ENCODE` writes (`fieldValue_eq_iff`), whose own top nibble is clear. -/
theorem fieldRangeAndDontCareNibble : Obligations.FieldRangeAndDontCareNibble := by
  unfold Obligations.FieldRangeAndDontCareNibble
  refine ⟨fun b0 b1 b2 => ⟨fieldValue_range b0 b1 b2, (fieldValue_and_lowNibble b0 b1 b2).symm⟩, fun v hv => ?_⟩
  obtain ⟨hnibble, -, -⟩ := (fieldValue_eq_iff hv _ _ _).mp (fieldValue_fieldBytes hv)
  exact ⟨fieldByte0 v, fieldByte1 v, fieldByte2 v, hnibble, fieldValue_eq_iff hv⟩

/-! ### Whole frames -/

/-- `ENCODE` writes both sync words (40_packet_codec.md R89). -/
theorem encodeFrame_valid (a b c d : Int) : (encodeFrame a b c d).valid = true :=
  (Window.valid_iff _).mpr ⟨rfl, rfl, rfl, rfl⟩

/-- DECODE of ENCODE accepts the values of the four fields written. -/
theorem decodeWindow_encodeFrame (a b c d : Int) :
    decodeWindow (encodeFrame a b c d) =
      .accepted (fieldValue (fieldByte0 a) (fieldByte1 a) (fieldByte2 a))
        (fieldValue (fieldByte0 b) (fieldByte1 b) (fieldByte2 b))
        (fieldValue (fieldByte0 c) (fieldByte1 c) (fieldByte2 c))
        (fieldValue (fieldByte0 d) (fieldByte1 d) (fieldByte2 d)) :=
  decodeWindow_of_valid (encodeFrame_valid a b c d)

/-- Settles O19: each field by `fieldValue_fieldBytes`. -/
theorem encodeThenDecodeInRange : Obligations.EncodeThenDecodeInRange := by
  unfold Obligations.EncodeThenDecodeInRange
  intro a b c d ha hb hc hd
  rw [decodeWindow_encodeFrame, fieldValue_fieldBytes ha, fieldValue_fieldBytes hb, fieldValue_fieldBytes hc,
    fieldValue_fieldBytes hd]

/-- Settles O20: each field by `fieldValue_range` and `fieldValue_fieldBytes_emod`. -/
theorem encodeThenDecodeResidues : Obligations.EncodeThenDecodeResidues := by
  unfold Obligations.EncodeThenDecodeResidues
  intro a b c d
  have hfield (x : Int) := And.intro (fieldValue_range (fieldByte0 x) (fieldByte1 x) (fieldByte2 x))
    (fieldValue_fieldBytes_emod x)
  exact ⟨_, _, _, _, decodeWindow_encodeFrame a b c d, hfield a, hfield b, hfield c, hfield d⟩

/-- The bytes that `ENCODE` writes for a field's value are the field's, its top nibble cleared. -/
theorem fieldBytes_fieldValue (b0 b1 b2 : Byte) :
    fieldByte0 (fieldValue b0 b1 b2) = b0 &&& 0x0F ∧ fieldByte1 (fieldValue b0 b1 b2) = b1 ∧
      fieldByte2 (fieldValue b0 b1 b2) = b2 := by
  obtain ⟨h0, h1, h2⟩ := (fieldValue_eq_iff (fieldValue_range b0 b1 b2) b0 b1 b2).mp rfl
  exact ⟨h0.symm, h1.symm, h2.symm⟩

/-- Settles O21: an accepted window has its sync words, and each field is rewritten by `fieldBytes_fieldValue`. -/
theorem decodeThenEncodeClearsNibbles : Obligations.DecodeThenEncodeClearsNibbles := by
  unfold Obligations.DecodeThenEncodeClearsNibbles
  intro f a b c d h
  rcases decodeWindow_cases f with ⟨hv, hd⟩ | ⟨-, hd⟩
  · obtain ⟨rfl, rfl, rfl, rfl⟩ := Verdict.accepted.inj (hd.symm.trans h)
    obtain ⟨h0, h1, h14, h15⟩ := f.valid_iff.mp hv
    simp only [encodeFrame, fieldBytes_fieldValue, h0, h1, h14, h15]
    rfl
  · cases hd.symm.trans h

/-! ### The codec's operations -/

/-- Settles O23: each of the three operations writes the output record alone, with a verdict or with a frame. -/
theorem codecOperationsFrame : Obligations.CodecOperationsFrame := by
  unfold Obligations.CodecOperationsFrame
  rintro i s t (⟨f, rfl⟩ | ⟨f, rfl⟩ | ⟨a, b, c, d, rfl⟩) h
  · obtain ⟨-, h⟩ := guarded_eq_next.mp h
    split at h
    · cases h
      exact ⟨rfl, rfl, rfl, rfl, .inl ⟨_, rfl⟩⟩
    · cases h
  · obtain ⟨-, h⟩ := guarded_eq_next.mp h
    split at h
    · cases h
    · cases h
      exact ⟨rfl, rfl, rfl, rfl, .inl ⟨_, rfl⟩⟩
  · obtain ⟨-, h⟩ := guarded_eq_next.mp h
    cases h
    exact ⟨rfl, rfl, rfl, rfl, .inr ⟨_, rfl⟩⟩

end Sys2Proof.Machine
end

section
/-! The family 41_frame_synchronizer.md, the passes of the pseudocode that accept a candidate (R106,
42_outputs_and_sequencing.md R130, R131), and what a whole run does to the bytes, the counters and the fault. -/

namespace Sys2Proof.Machine

/-! ### One pass with an accepted candidate -/

/-- Where the earliest marker begins a whole valid window and an index is left, the pseudocode emits its event and goes
on behind it (41_frame_synchronizer.md R107, 42_outputs_and_sequencing.md R130). -/
theorem ingestRun_iff_of_accept {c : Config} {r r' : Regs} {es : List Sample} {pre rest : List Byte} {w : Window}
    (ha : r.acc = pre ++ w.bytes ++ rest) (hm : EarliestMarker r.acc pre.length) (hv : w.valid = true)
    (hs : r.seqNext ≠ 2 ^ c.seqWidth) :
    IngestRun c r es r' ↔ ∃ es', es = sampleOf r.seqNext w :: es' ∧
      IngestRun c { r with acc := rest, seqNext := r.seqNext + 1 } es' r' := by
  constructor
  · intro h
    cases h with
    | noMarker hn => exact absurd hm.1 (hn _)
    | hold hi hl => exact absurd (hi.add_sixteen_le ha hm) (Nat.not_le.mpr hl)
    | accept ha' hm' _ _ hrun =>
      obtain ⟨rfl, rfl⟩ := candidate_unique ha hm ha' hm'
      exact ⟨_, rfl, hrun⟩
    | reject ha' hm' hv' =>
      obtain ⟨rfl, -⟩ := candidate_unique ha hm ha' hm'
      exact absurd hv (Bool.eq_false_iff.mp hv')
    | exhausted _ _ _ hs' => exact absurd hs' hs
  · rintro ⟨es', rfl, hrun⟩
    exact .accept ha hm hv hs hrun

/-- Where the earliest marker begins a whole valid window and no index is left, the pseudocode sets the fault and stops
(42_outputs_and_sequencing.md R131, 60_exceptions.md R153). -/
theorem ingestRun_iff_of_exhausted {c : Config} {r r' : Regs} {es : List Sample} {pre rest : List Byte} {w : Window}
    (ha : r.acc = pre ++ w.bytes ++ rest) (hm : EarliestMarker r.acc pre.length) (hv : w.valid = true)
    (hs : r.seqNext = 2 ^ c.seqWidth) : IngestRun c r es r' ↔ es = [] ∧ r' = { r with fault := .seqExhausted } := by
  constructor
  · intro h
    cases h with
    | noMarker hn => exact absurd hm.1 (hn _)
    | hold hi hl => exact absurd (hi.add_sixteen_le ha hm) (Nat.not_le.mpr hl)
    | accept _ _ _ hs' => exact absurd hs hs'
    | reject ha' hm' hv' =>
      obtain ⟨rfl, -⟩ := candidate_unique ha hm ha' hm'
      exact absurd hv (Bool.eq_false_iff.mp hv')
    | exhausted => exact ⟨rfl, rfl⟩
  · rintro ⟨rfl, rfl⟩
    exact .exhausted ha hm hv hs

/-- Settles O27, by induction on the first run: each of its passes leaves the second one no other way to begin. -/
theorem pseudocodeIsDeterministic : Obligations.PseudocodeIsDeterministic := by
  unfold Obligations.PseudocodeIsDeterministic
  intro c r r1 r2 es1 es2 h1 h2
  induction h1 generalizing es2 with
  | noMarker hn =>
    obtain ⟨rfl, rfl⟩ := (ingestRun_iff_of_noMarker hn).mp h2
    exact ⟨rfl, rfl⟩
  | hold hm hl =>
    obtain ⟨rfl, rfl⟩ := (ingestRun_iff_of_hold hm hl).mp h2
    exact ⟨rfl, rfl⟩
  | accept ha hm hv hs _ ih =>
    obtain ⟨es, rfl, hrun⟩ := (ingestRun_iff_of_accept ha hm hv hs).mp h2
    obtain ⟨rfl, rfl⟩ := ih _ hrun
    exact ⟨rfl, rfl⟩
  | reject ha hm hv _ ih => exact ih _ ((ingestRun_iff_of_reject ha hm hv).mp h2)
  | exhausted ha hm hv hs =>
    obtain ⟨rfl, rfl⟩ := (ingestRun_iff_of_exhausted ha hm hv hs).mp h2
    exact ⟨rfl, rfl⟩

/-! ### A whole run -/

/-- What a run leaves are the last bytes of what it began with. -/
theorem IngestRun.acc_suffix {c : Config} {r r' : Regs} {es : List Sample} (h : IngestRun c r es r') :
    r'.acc <:+ r.acc := by
  induction h with
  | noMarker => exact List.drop_suffix _ _
  | hold => exact List.suffix_refl _
  | accept ha _ _ _ _ ih => exact ih.trans (ha ▸ List.suffix_append _ _)
  | reject ha _ _ _ ih => exact ih.trans (ha ▸ List.suffix_append _ _)
  | exhausted => exact List.suffix_refl _

/-- Every event stands for the 16 bytes of its window (41_frame_synchronizer.md R112). -/
theorem IngestRun.length_le {c : Config} {r r' : Regs} {es : List Sample} (h : IngestRun c r es r') :
    16 * es.length + r'.acc.length ≤ r.acc.length := by
  induction h with
  | accept ha _ _ _ _ ih =>
    rw [ha]
    simp only [List.length_append, List.length_cons, Window.bytes_length] at ih ⊢
    omega
  | reject ha _ _ _ ih =>
    rw [ha]
    simp only [List.length_append] at ih ⊢
    omega
  | noMarker => simp [last16]
  | hold => simp
  | exhausted => simp

/-- The events take the indices from `seq_next` on, one each (42_outputs_and_sequencing.md R132). -/
theorem IngestRun.indices {c : Config} {r r' : Regs} {es : List Sample} (h : IngestRun c r es r') :
    r'.seqNext = r.seqNext + es.length ∧ es.map (fun e => e.seq) = List.range' r.seqNext es.length := by
  induction h with
  | noMarker => exact ⟨rfl, rfl⟩
  | hold => exact ⟨rfl, rfl⟩
  | accept _ _ _ _ _ ih =>
    obtain ⟨hseq, hindices⟩ := ih
    rw [List.length_cons, List.range'_succ, List.map_cons, hindices, hseq]
    exact ⟨Nat.add_right_comm _ _ _, rfl⟩
  | reject _ _ _ _ ih => exact ih
  | exhausted => exact ⟨rfl, rfl⟩

/-- `seq_next` stays within its range (10_state.md R23). -/
theorem IngestRun.seqNext_le {c : Config} {r r' : Regs} {es : List Sample} (h : IngestRun c r es r')
    (hr : r.seqNext ≤ 2 ^ c.seqWidth) : r'.seqNext ≤ 2 ^ c.seqWidth := by
  induction h with
  | noMarker => exact hr
  | hold => exact hr
  | accept _ _ _ hs _ ih => exact ih (Nat.lt_of_le_of_ne hr hs)
  | reject _ _ _ _ ih => exact ih hr
  | exhausted => exact hr

/-- `rej_count` stays within its range (10_state.md R24). -/
theorem IngestRun.rejCount_lt {c : Config} {r r' : Regs} {es : List Sample} (h : IngestRun c r es r')
    (hr : r.rejCount < 2 ^ c.rejWidth) : r'.rejCount < 2 ^ c.rejWidth := by
  induction h with
  | noMarker => exact hr
  | hold => exact hr
  | accept _ _ _ _ _ ih => exact ih hr
  | reject _ _ _ _ ih => exact ih (Nat.mod_lt _ (Nat.two_pow_pos _))
  | exhausted => exact hr

/-- Every event is the sample of some window. -/
theorem IngestRun.events_sampleOf {c : Config} {r r' : Regs} {es : List Sample} (h : IngestRun c r es r') :
    ∀ e ∈ es, ∃ q w, e = sampleOf q w := by
  induction h with
  | noMarker => simp
  | hold => simp
  | accept _ _ _ _ _ ih => exact List.forall_mem_cons.mpr ⟨⟨_, _, rfl⟩, ih⟩
  | reject _ _ _ _ ih => exact ih
  | exhausted => simp

/-- A run that enters the fault state has no index left and stops before a valid candidate (60_exceptions.md R153). -/
theorem IngestRun.of_fault {c : Config} {r r' : Regs} {es : List Sample} (h : IngestRun c r es r')
    (hr : r.fault = .none) (hr' : r'.fault ≠ .none) :
    r'.fault = .seqExhausted ∧ r'.seqNext = 2 ^ c.seqWidth ∧ ∃ (pre : List Byte) (w : Window) (rest : List Byte),
      r'.acc = pre ++ w.bytes ++ rest ∧ EarliestMarker r'.acc pre.length ∧ w.valid = true := by
  induction h with
  | noMarker => exact absurd hr hr'
  | hold => exact absurd hr hr'
  | accept _ _ _ _ _ ih => exact ih hr hr'
  | reject _ _ _ _ ih => exact ih hr hr'
  | exhausted ha hm hv hs => exact ⟨rfl, hs, _, _, _, ha, hm, hv⟩

/-! ### One INGEST as a run -/

/-- Everything an INGEST that answers a next state has done, in the terms of the pseudocode: it was dropped in the fault
state, or its events and tuple are those of a run. -/
theorem exec_ingest_next {chunk : List Byte} {s t : State} {r : Regs} (hb : s.block = .live r)
    (h : exec (.ingest chunk) s = .next t) :
    s.cfg.wf = true ∧ chunk.length ≤ s.cfg.chunkMax ∧
      ((r.fault ≠ .none ∧ t = quiet s) ∨
        (r.fault = .none ∧ ∃ r' es, IngestRun s.cfg { r with acc := r.acc ++ chunk } es r' ∧ t = deliver s r' es)) := by
  obtain ⟨hwf, r₀, hb₀, hl, hcases⟩ := ingestChunk_next h
  obtain rfl : r = r₀ := Block.live.inj (hb.symm.trans hb₀)
  refine ⟨hwf, hl, hcases.imp_right fun ⟨hf, r', es, hregs, ht⟩ => ⟨hf, r', es, ?_, ht⟩⟩
  obtain ⟨r₁, es₁, hloop, hrun⟩ := ingestLoop_run s.cfg _ { r with acc := r.acc ++ chunk } (Nat.lt_succ_self _)
  obtain ⟨rfl, rfl⟩ := Prod.mk.inj (Except.ok.inj (hloop.symm.trans hregs))
  exact hrun

/-- An INGEST that is not turned away answers the result of whatever run there is: the pseudocode has one. -/
theorem exec_ingest_of_run {s : State} {r r' : Regs} {chunk : List Byte} {es : List Sample} (hwf : s.cfg.wf = true)
    (hb : s.block = .live r) (hl : chunk.length ≤ s.cfg.chunkMax) (hf : r.fault = .none)
    (hrun : IngestRun s.cfg { r with acc := r.acc ++ chunk } es r') :
    exec (.ingest chunk) s = .next (deliver s r' es) := by
  obtain ⟨r₁, es₁, hloop, hrun₁⟩ := ingestLoop_run s.cfg _ { r with acc := r.acc ++ chunk } (Nat.lt_succ_self _)
  obtain ⟨rfl, rfl⟩ := pseudocodeIsDeterministic _ _ _ _ _ _ hrun hrun₁
  have hregs : ingestRegs s.cfg r chunk = .ok (r', es) := hloop
  rw [exec_ingest, ingestChunk_live hwf hb hl hf, hregs]

end Sys2Proof.Machine
end

section
/-! The families 00_scope.md (R9), 30_encoding.md and 20_memory.md: what a step does before and beside the operation it
executes. -/

namespace Sys2Proof.Machine

/-- Under an ill-formed configuration every operation is refused (00_scope.md R9). -/
theorem exec_of_not_wf {s : State} (hwf : s.cfg.wf = false) (i : Instr) : exec i s = .refused .badConfig := by
  cases i with
  | reset => exact guarded_of_not_wf hwf _
  | ingest chunk => exact guarded_of_not_wf hwf _
  | idle => exact guarded_of_not_wf hwf _
  | decodeAccept f => exact guarded_of_not_wf hwf _
  | decodeReject f => exact guarded_of_not_wf hwf _
  | encode a b c d => exact guarded_of_not_wf hwf _

theorem step_of_not_wf {s : State} (hwf : s.cfg.wf = false) : step s = .refused .badConfig :=
  guarded_of_not_wf hwf _

/-- Settles O2: `exec_of_not_wf` and `step_of_not_wf`. -/
theorem badConfigurationRefused : Obligations.BadConfigurationRefused := by
  unfold Obligations.BadConfigurationRefused
  exact fun i s hwf => ⟨exec_of_not_wf hwf i, step_of_not_wf hwf⟩

/-- Settles O5: the step refuses the input (`step_of_decode_error`), with the reason that the block selects. -/
theorem countOverMaximumRefused : Obligations.CountOverMaximumRefused := by
  unfold Obligations.CountOverMaximumRefused
  intro s x rest n hwf hi hd
  rw [step_of_decode_error hwf hi hd]
  constructor
  · intro hb
    simp only [refuseInput, hb]
  · intro r hb
    simp only [refuseInput, hb]

/-- Settles O57: `step_of_decode_ok`; an ill-formed configuration refuses the step and the operation alike. -/
theorem stepRunsDecodedOperation : Obligations.StepRunsDecodedOperation := by
  unfold Obligations.StepRunsDecodedOperation
  intro s x rest i hi hd _
  cases hwf : s.cfg.wf with
  | true => exact step_of_decode_ok hwf hi hd
  | false => rw [step_of_not_wf hwf, exec_of_not_wf (s := { s with inputs := rest }) hwf]

/-- Where nothing is presented a step hands out nothing and leaves the rest (60_exceptions.md R164). -/
theorem step_of_no_input {s : State} (hwf : s.cfg.wf = true) (hi : s.inputs = []) : step s = .next (quiet s) := by
  simp only [step, guarded_of_wf hwf, hi]

/-- Settles O58: `step_of_no_input`. -/
theorem nothingPresentedKeepsBlock : Obligations.NothingPresentedKeepsBlock := by
  unfold Obligations.NothingPresentedKeepsBlock
  exact fun s hwf hi => step_of_no_input hwf hi

end Sys2Proof.Machine
end

section
/-! The families 70_reset_and_hazards.md and 10_state.md: what RESET leaves, and the state after it. -/

namespace Sys2Proof.Machine

/-- Settles O54: by `exec_reset_next` the block after RESET depends on the configuration alone. -/
theorem resetFrame : Obligations.ResetFrame := by
  unfold Obligations.ResetFrame
  constructor
  · intro s t h
    rw [exec_reset_next h]
    exact ⟨rfl, rfl, rfl⟩
  · intro s s' t t' hcfg h h'
    rw [exec_reset_next h, exec_reset_next h', hcfg]

/-- Settles O56: the values of the reset state of this hardware, read by `readStatus_live`. -/
theorem stateAfterReset : Obligations.StateAfterReset := by
  unfold Obligations.StateAfterReset
  exact ⟨rfl, rfl, rfl, _, readStatus_live (by decide) rfl, rfl, rfl, rfl, rfl⟩

/-- Settles O46: `readStatus_live`, each output read back within the range that the invariant gives its element. -/
theorem statusOutputsShowState : Obligations.StatusOutputsShowState := by
  unfold Obligations.StatusOutputsShowState
  intro s r ⟨hwf, hlive, _⟩ hb
  obtain ⟨-, -, hrej, -, -⟩ := hlive r hb
  have hexhausted : (statusOf s.cfg r).seqExhaustedO = 1 ↔ r.seqNext = 2 ^ s.cfg.seqWidth := by
    by_cases hs : r.seqNext = 2 ^ s.cfg.seqWidth
    · simp [statusOf, hs]
    · simp [statusOf, hs]
  have hfault : (statusOf s.cfg r).faultO = 1 ↔ r.fault = .seqExhausted := by
    rw [statusOf_faultO_eq_one_iff]
    cases r.fault <;> simp
  refine ⟨statusOf s.cfg r, readStatus_live hwf hb, ?_, hexhausted, ?_, hfault, ?_⟩
  · rw [statusOf, BitVec.toNat_ofNat, Nat.mod_mod]
  · rw [statusOf, BitVec.toNat_ofNat, Nat.mod_eq_of_lt hrej]
  · exact fun acc =>
      readStatus_live (s := { s with block := .live { r with acc := acc } }) (r := { r with acc := acc }) hwf rfl

end Sys2Proof.Machine
end

section
/-! The families 41_frame_synchronizer.md, 42_outputs_and_sequencing.md and 60_exceptions.md, one operation: what an
INGEST emits and leaves, that nothing faults, and who writes the block. -/

namespace Sys2Proof.Machine

/-! ### One candidate -/

/-- The header check of a window at the position of the scan: a marker stands there (41_frame_synchronizer.md R114). -/
theorem header_of_markerAt {pre rest : List Byte} {w : Window} (hm : MarkerAt (pre ++ w.bytes ++ rest) pre.length) :
    w.f0 = 0xDE ∧ w.f1 = 0xAD := by
  obtain ⟨h0, h1⟩ := hm
  rw [List.append_assoc] at h0 h1
  rw [List.getElem?_append_right (Nat.le_refl _), Nat.sub_self] at h0
  rw [List.getElem?_append_right (Nat.le_add_right _ 1), Nat.add_sub_cancel_left] at h1
  exact ⟨Option.some.inj h0, Option.some.inj h1⟩

/-- A candidate is valid exactly when its trailer is good. -/
theorem valid_iff_trailer_of_markerAt {pre rest : List Byte} {w : Window}
    (hm : MarkerAt (pre ++ w.bytes ++ rest) pre.length) : w.valid = true ↔ w.f14 = 0xBE ∧ w.f15 = 0xEF := by
  obtain ⟨h0, h1⟩ := header_of_markerAt hm
  rw [Window.valid_iff]
  exact ⟨fun ⟨_, _, h⟩ => h, fun h => ⟨h0, h1, h⟩⟩

/-- Settles O34: the scan's position carries the header, so validity is the trailer's
(`valid_iff_trailer_of_markerAt`). -/
theorem onlyTheTrailerRejects : Obligations.OnlyTheTrailerRejects := by
  unfold Obligations.OnlyTheTrailerRejects
  intro acc i w hscan hw
  obtain ⟨pre, rest, rfl, rfl⟩ := accWindow_eq_ok.mp hw
  have hm := (scan_eq_some_iff.mp hscan).1
  rw [decodeWindow_eq_rejected_iff, ← Bool.not_eq_true, valid_iff_trailer_of_markerAt hm, not_and_or]

/-- Settles O30: the run accepts the candidate and ends with the trim of the marker-free rest. -/
theorem acceptedCandidateEmitsSample : Obligations.AcceptedCandidateEmitsSample := by
  unfold Obligations.AcceptedCandidateEmitsSample
  intro s r chunk pre rest w hwf hb hf hl ha hm htrailer hs hn
  have hv : w.valid = true := (valid_iff_trailer_of_markerAt (ha ▸ hm.1)).mpr htrailer
  exact exec_ingest_of_run hwf hb hl hf (.accept ha hm hv hs.ne (.noMarker hn))

/-- Settles O45: the pass is `ingestRun_iff_of_exhausted`; a bad trailer is counted as O31 says. -/
theorem exhaustedSequenceFaults : Obligations.ExhaustedSequenceFaults := by
  unfold Obligations.ExhaustedSequenceFaults
  constructor
  · intro s r chunk pre rest w hwf hb hf hl ha hm hs
    constructor
    · intro htrailer
      have hv : w.valid = true := (valid_iff_trailer_of_markerAt (ha ▸ hm.1)).mpr htrailer
      exact ⟨_, exec_ingest_of_run hwf hb hl hf (.exhausted ha hm hv hs), rfl⟩
    · exact rejectedCandidateIsCounted.1 s r chunk pre rest w hwf hb hf hl ha hm
  · intro c r r' es pre rest w ha hm htrailer hs
    exact ingestRun_iff_of_exhausted ha hm ((valid_iff_trailer_of_markerAt (ha ▸ hm.1)).mpr htrailer) hs

/-! ### The events of one INGEST -/

/-- Settles O33: `IngestRun.length_le` for the run that the INGEST is. -/
theorem eventsAreBounded : Obligations.EventsAreBounded := by
  unfold Obligations.EventsAreBounded
  intro s t r r' chunk hb h hb' hf
  obtain ⟨-, -, ⟨hfault, -⟩ | ⟨-, r₁, es, hrun, rfl⟩⟩ := exec_ingest_next hb h
  · exact absurd hf hfault
  · obtain rfl : r₁ = r' := Block.live.inj hb'
    have hlen : 16 * es.length + r₁.acc.length ≤ (r.acc ++ chunk).length := hrun.length_le
    have hevents : es.length ≤ (r.acc ++ chunk).length / 16 := by omega
    exact ⟨hlen, hevents⟩

/-- Settles O44: `IngestRun.indices`; an INGEST that the fault state drops has no event. -/
theorem indicesAreConsecutive : Obligations.IndicesAreConsecutive := by
  unfold Obligations.IndicesAreConsecutive
  intro s t r chunk hb h
  obtain ⟨-, -, ⟨-, rfl⟩ | ⟨-, r', es, hrun, rfl⟩⟩ := exec_ingest_next hb h
  · exact ⟨r, hb, rfl, rfl⟩
  · exact ⟨r', rfl, hrun.indices⟩

/-- Settles O47: the run's own account of its fault (`IngestRun.of_fault`), of its indices and of the bytes it
leaves. -/
theorem faultIsPrecise : Obligations.FaultIsPrecise := by
  unfold Obligations.FaultIsPrecise
  intro s t r r' chunk _ hb hf h hb' hf'
  obtain ⟨-, -, ⟨hfault, -⟩ | ⟨-, r₁, es, hrun, rfl⟩⟩ := exec_ingest_next hb h
  · exact absurd hf hfault
  · obtain rfl : r₁ = r' := Block.live.inj hb'
    obtain ⟨hcode, hseq, hcandidate⟩ := hrun.of_fault hf hf'
    exact ⟨hcode, hseq, hrun.indices.1.symm.trans hseq, hrun.acc_suffix, hcandidate⟩

/-! ### No fault of the model -/

/-- An operation behind the configuration check faults only where it faults itself. -/
theorem guarded_ne_fault {s : State} {k : Host.Outcome State Fault Refusal} {f : Fault}
    (hk : s.cfg.wf = true → k ≠ .fault f) : guarded s k ≠ .fault f := by
  cases hwf : s.cfg.wf with
  | true => rw [guarded_of_wf hwf]; exact hk hwf
  | false => rw [guarded_of_not_wf hwf]; nofun

/-- INGEST never faults: it is refused, dropped, or completes as a run (20_memory.md R41,
41_frame_synchronizer.md R112). -/
theorem exec_ingest_ne_fault (chunk : List Byte) (s : State) (f : Fault) : exec (.ingest chunk) s ≠ .fault f := by
  cases hwf : s.cfg.wf with
  | false => rw [exec_of_not_wf hwf]; nofun
  | true =>
    obtain ⟨hunreset, hlive⟩ := ingestRunsPseudocode s chunk hwf
    cases hb : s.block with
    | unreset => rw [hunreset hb]; nofun
    | live r =>
      obtain ⟨hlong, hdrop, hrun⟩ := hlive r hb
      rcases Nat.lt_or_ge s.cfg.chunkMax chunk.length with hl | hl
      · rw [hlong hl]; nofun
      · by_cases hf : r.fault = .none
        · obtain ⟨_, _, -, hexec⟩ := hrun hl hf
          rw [hexec]; nofun
        · obtain ⟨_, hexec, -⟩ := hdrop hl hf
          rw [hexec]; nofun

/-- No operation faults: beside INGEST and its empty chunk, IDLE, none has a fault among its answers. -/
theorem exec_ne_fault (i : Instr) (s : State) (f : Fault) : exec i s ≠ .fault f := by
  cases i with
  | reset => exact guarded_ne_fault nofun
  | ingest chunk => exact exec_ingest_ne_fault chunk s f
  | idle => exact exec_ingest_ne_fault [] s f
  | decodeAccept w => exact guarded_ne_fault fun _ => by split <;> nofun
  | decodeReject w => exact guarded_ne_fault fun _ => by split <;> nofun
  | encode a b c d => exact guarded_ne_fault nofun

/-- Settles O32: `exec_ne_fault`; a step answers an operation, a refusal, or the same state. -/
theorem noOperationFaults : Obligations.NoOperationFaults := by
  unfold Obligations.NoOperationFaults
  refine ⟨exec_ne_fault, fun s f => guarded_ne_fault fun _ => ?_⟩
  split
  · nofun
  · split
    · exact exec_ne_fault _ _ f
    · next e _ =>
      obtain ⟨reason, hrefused⟩ := refuseInput_refused e { s with inputs := _ }
      rw [hrefused]
      nofun

/-! ### What an operation writes -/

/-- An operation that completes leaves the configuration and the pending inputs (60_exceptions.md R159). -/
theorem exec_frame {i : Instr} {s t : State} (h : exec i s = .next t) : t.cfg = s.cfg ∧ t.inputs = s.inputs := by
  obtain ⟨-, ⟨chunk, -, hingest⟩ | ⟨-, rfl⟩ | ⟨verdict, frame, rfl⟩⟩ := exec_next h
  · obtain ⟨-, r, -, -, ⟨-, rfl⟩ | ⟨-, r', es, -, rfl⟩⟩ := ingestChunk_next hingest
    · exact ⟨rfl, rfl⟩
    · exact ⟨rfl, rfl⟩
  · exact ⟨rfl, rfl⟩
  · exact ⟨rfl, rfl⟩

/-- Settles O51: a step takes the head of the inputs, and the operation it executes leaves the rest (`exec_frame`). -/
theorem configurationNeverChanges : Obligations.ConfigurationNeverChanges := by
  unfold Obligations.ConfigurationNeverChanges
  intro s t h
  obtain ⟨-, ⟨hi, rfl⟩ | ⟨x, rest, i, hi, -, hexec⟩⟩ := step_next h
  · exact ⟨rfl, by rw [quiet_inputs, hi]; rfl⟩
  · obtain ⟨hcfg, hinputs⟩ := exec_frame hexec
    exact ⟨hcfg, by rw [hinputs, hi]; rfl⟩

/-- The four values of an event are field values, so they are in range. -/
theorem sampleOf_range (q : Nat) (w : Window) :
    ChannelRange (sampleOf q w).a ∧ ChannelRange (sampleOf q w).b ∧ ChannelRange (sampleOf q w).c ∧
      ChannelRange (sampleOf q w).d :=
  ⟨fieldValue_range _ _ _, fieldValue_range _ _ _, fieldValue_range _ _ _, fieldValue_range _ _ _⟩

/-- Settles O52: both operations are an INGEST, which hands out the events of a run, each a sample of some window. -/
theorem ingestFrame : Obligations.IngestFrame := by
  unfold Obligations.IngestFrame
  intro i s t hi h
  obtain ⟨hcfg, hinputs⟩ := exec_frame h
  obtain ⟨chunk, hingest⟩ : ∃ chunk, exec (.ingest chunk) s = .next t := by
    rcases hi with rfl | ⟨chunk, rfl⟩
    · exact ⟨[], h⟩
    · exact ⟨chunk, h⟩
  obtain ⟨-, r, hb, -⟩ := ingestChunk_next hingest
  refine ⟨hcfg, hinputs, ?_⟩
  obtain ⟨-, -, ⟨-, rfl⟩ | ⟨-, r', es, hrun, rfl⟩⟩ := exec_ingest_next hb hingest
  · exact ⟨rfl, rfl, fun e he => absurd he List.not_mem_nil⟩
  · refine ⟨rfl, rfl, fun e he => ?_⟩
    obtain ⟨q, w, rfl⟩ := hrun.events_sampleOf e he
    exact sampleOf_range q w

/-- Settles O50: what `exec_next` leaves to write the block are RESET and an INGEST; an INGEST moves `seq_next` up by
its events and faults with no index left (`IngestRun.indices`, `IngestRun.of_fault`). -/
theorem whoWritesTheBlock : Obligations.WhoWritesTheBlock := by
  unfold Obligations.WhoWritesTheBlock
  intro i s t h
  obtain ⟨-, ⟨chunk, hi, hingest⟩ | ⟨hreset, -⟩ | ⟨verdict, frame, rfl⟩⟩ := exec_next h
  · refine ⟨fun _ => .inr (hi.symm.imp And.left fun hi => ⟨chunk, hi⟩), fun r r' hb hb' _ => ?_⟩
    obtain ⟨-, -, ⟨hfault, rfl⟩ | ⟨hf, r₁, es, hrun, rfl⟩⟩ := exec_ingest_next hb hingest
    · obtain rfl : r = r' := Block.live.inj (hb.symm.trans hb')
      exact ⟨Nat.le_refl _, fun _ => rfl, fun hf => absurd hf hfault⟩
    · obtain rfl : r₁ = r' := Block.live.inj hb'
      exact ⟨hrun.indices.1 ▸ Nat.le_add_right _ _, fun hf' => absurd hf hf', fun _ hf' => (hrun.of_fault hf hf').2.1⟩
  · exact ⟨fun _ => .inl hreset, fun _ _ _ _ hne => absurd hreset hne⟩
  · refine ⟨fun hne => absurd rfl hne, fun r r' hb hb' _ => ?_⟩
    obtain rfl : r = r' := Block.live.inj (hb.symm.trans hb')
    exact ⟨Nat.le_refl _, fun _ => rfl, fun hf hf' => absurd hf hf'⟩

end Sys2Proof.Machine
end

section
/-! The family 41_frame_synchronizer.md, the accumulator's invariant (R118), and what follows from it: every step keeps
the machine's invariant, IDLE changes nothing (R117), and the byte-serial hardware (R119). -/

namespace Sys2Proof.Machine

/-! ### The accumulator before and after a run -/

/-- An earliest marker stays the earliest whatever is appended. -/
theorem EarliestMarker.append {acc : List Byte} {i : Nat} (h : EarliestMarker acc i) (more : List Byte) :
    EarliestMarker (acc ++ more) i := by
  obtain ⟨hm, hfirst⟩ := h
  refine ⟨hm.append more, fun j hj hj' => hfirst j hj (hj'.of_append ?_)⟩
  have := hm.lt
  omega

/-- Between operations the accumulator holds at most CHUNK_MAX + 29 bytes (41_frame_synchronizer.md R118). -/
theorem AccForm.length_le {c : Config} {acc : List Byte} (h : AccForm c acc) : acc.length ≤ c.chunkMax + 29 := by
  obtain ⟨-, hl⟩ | ⟨i, -, hl, hi⟩ := h
  · omega
  · omega

/-- What holds of the accumulator in every pass of the loop: the earliest marker stands at or before CHUNK_MAX + 14, and
at most CHUNK_MAX + 15 bytes follow its position. -/
def PassForm (c : Config) (acc : List Byte) : Prop :=
  ∀ i, EarliestMarker acc i → i ≤ c.chunkMax + 14 ∧ acc.length ≤ i + 15 + c.chunkMax

/-- The append of step 1 leads from the form between operations to that of a pass: a marker that was not there before
uses a byte of the chunk. -/
theorem AccForm.passForm_append {c : Config} {acc chunk : List Byte} (h : AccForm c acc)
    (hl : chunk.length ≤ c.chunkMax) : PassForm c (acc ++ chunk) := by
  intro i hi
  have hlt := hi.1.lt
  rw [List.length_append] at hlt ⊢
  obtain ⟨hn, hacc⟩ | ⟨j, hj, hacc, hjmax⟩ := h
  · have hnew : acc.length ≤ i + 1 := Nat.not_lt.mp fun hold => hn i (hi.1.of_append hold)
    omega
  · obtain rfl := hi.unique (hj.append chunk)
    omega

/-- So few bytes are left behind a whole candidate that they have the form of a pass again. -/
theorem PassForm.length_rest_lt {c : Config} {acc pre rest : List Byte} {w : Window} (h : PassForm c acc)
    (ha : acc = pre ++ w.bytes ++ rest) (hm : EarliestMarker acc pre.length) : rest.length < c.chunkMax := by
  obtain ⟨-, hl⟩ := h _ hm
  have hlen := congrArg List.length ha
  simp only [List.length_append, Window.bytes_length] at hlen
  omega

theorem passForm_of_length_lt {c : Config} {acc : List Byte} (h : acc.length < c.chunkMax) : PassForm c acc := by
  intro i hi
  have := hi.1.lt
  omega

/-- A run that ends without a fault leaves the accumulator in its form between operations (41_frame_synchronizer.md
R118). -/
theorem IngestRun.accForm {c : Config} {r r' : Regs} {es : List Sample} (h : IngestRun c r es r')
    (hr : PassForm c r.acc) (hf : r'.fault = .none) : AccForm c r'.acc := by
  induction h with
  | @noMarker r hn =>
    have hsuffix : NoMarker (last16 r.acc) := fun i hm => hn _ (markerAt_drop.mp hm)
    exact .inl ⟨hsuffix, (accKeepSuffix_spec r.acc 16).2.trans_le (Nat.min_le_left _ _)⟩
  | hold hm hl => exact .inr ⟨_, hm, Nat.le_of_lt_succ hl, (hr _ hm).1⟩
  | accept ha hm _ _ _ ih => exact ih (passForm_of_length_lt (hr.length_rest_lt ha hm)) hf
  | reject ha hm _ _ ih => exact ih (passForm_of_length_lt (hr.length_rest_lt ha hm)) hf
  | exhausted => cases hf

/-- A run that moves a counter leaves fewer than CHUNK_MAX bytes: a candidate was extracted. -/
theorem IngestRun.length_lt_of_counted {c : Config} {r r' : Regs} {es : List Sample} (h : IngestRun c r es r')
    (hr : PassForm c r.acc) (hmoved : r'.seqNext ≠ r.seqNext ∨ r'.rejCount ≠ r.rejCount) :
    r'.acc.length < c.chunkMax := by
  cases h with
  | noMarker => simp at hmoved
  | hold => simp at hmoved
  | accept ha hm _ _ hrun => exact Nat.lt_of_le_of_lt hrun.acc_suffix.length_le (hr.length_rest_lt ha hm)
  | reject ha hm _ hrun => exact Nat.lt_of_le_of_lt hrun.acc_suffix.length_le (hr.length_rest_lt ha hm)
  | exhausted => simp at hmoved

/-- From the form between operations a run without a chunk ends at once and changes nothing (41_frame_synchronizer.md
R117). -/
theorem AccForm.run_self {c : Config} {r : Regs} (h : AccForm c r.acc) : IngestRun c r [] r := by
  obtain ⟨hn, hl⟩ | ⟨i, hm, hl, -⟩ := h
  · have hkept : last16 r.acc = r.acc := by rw [last16, Nat.sub_eq_zero_of_le hl, List.drop_zero]
    exact (ingestRun_iff_of_noMarker hn).mpr ⟨rfl, by rw [hkept]⟩
  · exact .hold hm (Nat.lt_succ_of_le hl)

/-! ### The invariant -/

/-- The tuple right after RESET meets the invariant (10_state.md R31). -/
theorem Regs.reset_inv {c : Config} (hwf : c.wf = true) : (Regs.reset c).Inv c := by
  obtain ⟨-, -, -, -, hinit, -⟩ := c.wf_iff.mp hwf
  exact ⟨Nat.le_refl _, Nat.le_of_lt hinit, Nat.two_pow_pos _,
    fun _ => .inl ⟨noMarker_of_all rfl, Nat.zero_le _⟩, nofun⟩

/-- Settles O38: the tuple after reset by `Regs.reset_inv`; before the first reset there is none. -/
theorem resetMeetsInvariant : Obligations.ResetMeetsInvariant := by
  unfold Obligations.ResetMeetsInvariant
  have hreset : ∀ (c : Config) (xs : List Input), c.wf = true → (State.resetWith c xs).Inv := by
    intro c xs hwf
    refine ⟨hwf, fun r hr => ?_, fun e he => absurd he List.not_mem_nil⟩
    obtain rfl : Regs.reset c = r := Block.live.inj hr
    exact Regs.reset_inv hwf
  exact ⟨hreset _ _ (by decide), fun c xs hwf => ⟨hreset c xs hwf, hwf, nofun, fun e he => absurd he List.not_mem_nil⟩⟩

/-- After the append the accumulator of a tuple without a fault holds at most 2*CHUNK_MAX + 29 bytes
(41_frame_synchronizer.md R118). -/
theorem AccForm.length_append_le {c : Config} {acc chunk : List Byte} (h : AccForm c acc)
    (hl : chunk.length ≤ c.chunkMax) : (acc ++ chunk).length ≤ 2 * c.chunkMax + 29 := by
  have := h.length_le
  rw [List.length_append]
  omega

/-- Settles O39: the bounds of `AccForm`, and in the fault state the invariant's own bound; ACC_CAP is no smaller
(00_scope.md R8). -/
theorem accumulatorStaysWithinStorage : Obligations.AccumulatorStaysWithinStorage := by
  unfold Obligations.AccumulatorStaysWithinStorage
  intro s r chunk ⟨hwf, hlive, _⟩ hb hl
  obtain ⟨-, hcap, -⟩ := s.cfg.wf_iff.mp hwf
  obtain ⟨-, -, -, hform, hfault⟩ := hlive r hb
  constructor
  · cases hf : r.fault with
    | none =>
      have := (hform hf).length_le
      omega
    | seqExhausted => exact (hfault hf).2.trans hcap
  · intro hf
    have happend := (hform hf).length_append_le hl
    exact ⟨(hform hf).length_le, happend, happend.trans hcap⟩

/-- A run from a tuple that meets the invariant, its chunk appended, leads to one that meets it. -/
theorem IngestRun.inv {c : Config} {r r' : Regs} {es : List Sample} {chunk : List Byte}
    (h : IngestRun c { r with acc := r.acc ++ chunk } es r') (hr : r.Inv c) (hf : r.fault = .none)
    (hl : chunk.length ≤ c.chunkMax) : r'.Inv c := by
  obtain ⟨hinit, hseq, hrej, hform, -⟩ := hr
  have hmoved : r'.seqNext = r.seqNext + es.length := h.indices.1
  refine ⟨by omega, h.seqNext_le hseq, h.rejCount_lt hrej, h.accForm ((hform hf).passForm_append hl), fun hf' => ?_⟩
  obtain ⟨-, hlast, -⟩ := h.of_fault hf (by rw [hf']; nofun)
  exact ⟨hlast, h.acc_suffix.length_le.trans ((hform hf).length_append_le hl)⟩

/-- The events of a run fit the event format (30_encoding.md R70). -/
theorem IngestRun.events_inv {c : Config} {r r' : Regs} {es : List Sample} (h : IngestRun c r es r')
    (hr : r.seqNext ≤ 2 ^ c.seqWidth) : ∀ e ∈ es, e.Inv c := by
  intro e he
  obtain ⟨hseq, hindices⟩ := h.indices
  have hmem : e.seq ∈ List.range' r.seqNext es.length := hindices ▸ List.mem_map_of_mem he
  have hlt := (List.mem_range'_1.mp hmem).2
  refine ⟨Nat.lt_of_lt_of_le hlt (hseq ▸ h.seqNext_le hr), ?_⟩
  obtain ⟨q, w, rfl⟩ := h.events_sampleOf e he
  exact sampleOf_range q w

/-- A state that hands out no event and keeps the configuration and the block meets the invariant again. -/
theorem State.Inv.of_block_eq {s t : State} (hs : s.Inv) (hcfg : t.cfg = s.cfg) (hb : t.block = s.block)
    (he : t.out.events = []) : t.Inv := by
  obtain ⟨hwf, hlive, -⟩ := hs
  exact ⟨hcfg ▸ hwf, fun r hr => hcfg ▸ hlive r (hb ▸ hr), fun e h => absurd (he ▸ h) List.not_mem_nil⟩

/-- Every operation keeps the invariant: an INGEST by its run, RESET by its values, and the codec writes no tuple. -/
theorem exec_keeps_inv {i : Instr} {s t : State} (hs : s.Inv) (h : exec i s = .next t) : t.Inv := by
  obtain ⟨hwf, ⟨chunk, -, hingest⟩ | ⟨-, rfl⟩ | ⟨verdict, frame, rfl⟩⟩ := exec_next h
  · obtain ⟨-, r, hb, -⟩ := ingestChunk_next hingest
    obtain ⟨-, hl, ⟨-, rfl⟩ | ⟨hf, r', es, hrun, rfl⟩⟩ := exec_ingest_next hb hingest
    · exact hs.of_block_eq rfl rfl rfl
    · have hr : r.Inv s.cfg := hs.2.1 r hb
      refine ⟨hwf, fun r₁ hr₁ => ?_, hrun.events_inv hr.2.1⟩
      obtain rfl : r' = r₁ := Block.live.inj hr₁
      exact hrun.inv hr hf hl
  · refine ⟨hwf, fun r hr => ?_, fun e he => absurd he List.not_mem_nil⟩
    obtain rfl : Regs.reset s.cfg = r := Block.live.inj hr
    exact Regs.reset_inv hwf
  · exact hs.of_block_eq rfl rfl rfl

/-- Settles O37: the step executes one operation, which keeps the invariant (`exec_keeps_inv`), or none. -/
theorem stepKeepsInvariant : Obligations.StepKeepsInvariant := by
  unfold Obligations.StepKeepsInvariant
  intro s t hs h
  obtain ⟨-, ⟨-, rfl⟩ | ⟨x, rest, i, -, -, hexec⟩⟩ := step_next h
  · exact hs.of_block_eq rfl rfl rfl
  · exact exec_keeps_inv (s := { s with inputs := rest }) hs hexec

/-! ### What follows from it -/

/-- Settles O36: IDLE is the INGEST of no bytes, whose run from the invariant's form is `AccForm.run_self`. -/
theorem idleChangesNothing : Obligations.IdleChangesNothing := by
  unfold Obligations.IdleChangesNothing
  refine ⟨fun s => by rw [exec_idle, exec_ingest], fun s r ⟨hwf, hlive, _⟩ hb => ?_⟩
  obtain ⟨-, -, -, hform, -⟩ := hlive r hb
  by_cases hf : r.fault = .none
  · have hrun : IngestRun s.cfg { r with acc := r.acc ++ [] } [] r := by
      rw [List.append_nil]
      exact (hform hf).run_self
    have hexec := exec_ingest_of_run hwf hb (Nat.zero_le _) hf hrun
    rw [deliver, ← hb] at hexec
    exact hexec
  · exact ingestChunk_faulted hwf hb (Nat.zero_le _) hf

/-- Settles O40: with 31 bytes at most there is room for one event (`IngestRun.length_le`), and one that moved a counter
leaves fewer bytes than the chunk's one (`IngestRun.length_lt_of_counted`). -/
theorem byteSerialEmitsAtMostOne : Obligations.ByteSerialEmitsAtMostOne := by
  unfold Obligations.ByteSerialEmitsAtMostOne
  intro s t r r' chunk hs hmax hb h hb'
  have ht := exec_keeps_inv hs h
  obtain ⟨-, hlive, -⟩ := hs
  obtain ⟨-, -, -, hform, hfault⟩ := hlive r hb
  obtain ⟨-, -, -, hform', hfault'⟩ := ht.2.1 r' hb'
  rw [(exec_frame h).1] at hform' hfault'
  have hlen : r'.acc.length ≤ 31 ∧ (r'.fault = .none → r'.acc.length ≤ 30) := by
    cases hf : r'.fault with
    | none =>
      have := (hform' hf).length_le
      omega
    | seqExhausted => exact ⟨(hfault' hf).2.trans (by omega), nofun⟩
  obtain ⟨-, hl, ⟨-, rfl⟩ | ⟨hf, r₁, es, hrun, rfl⟩⟩ := exec_ingest_next hb h
  · obtain rfl : r = r' := Block.live.inj (hb.symm.trans hb')
    exact ⟨Nat.zero_le _, fun hmoved => by simp at hmoved, hlen⟩
  · obtain rfl : r₁ = r' := Block.live.inj hb'
    have hpass := (hform hf).passForm_append hl
    have htotal := (hform hf).length_append_le hl
    have hevents : es.length ≤ 1 := by
      have : 16 * es.length + r₁.acc.length ≤ (r.acc ++ chunk).length := hrun.length_le
      omega
    refine ⟨hevents, fun hmoved => ?_, hlen⟩
    have := hrun.length_lt_of_counted hpass hmoved
    exact List.length_eq_zero_iff.mp (by omega)

end Sys2Proof.Machine
end

section
/-! The family 41_frame_synchronizer.md, streams: trims lose no marker (R116), and a stream fed in chunks is decoded as
if it had come in one (R120, R121, R122). -/

namespace Sys2Proof.Machine

/-! ### Bytes in front of which no marker begins -/

/-- Bytes in front move the markers behind them. -/
theorem markerAt_append_left {front acc : List Byte} {i : Nat} :
    MarkerAt (front ++ acc) (front.length + i) ↔ MarkerAt acc i := by
  rw [← markerAt_drop, List.drop_left]

section

variable {front acc : List Byte} (hfront : ∀ i, i < front.length → ¬ MarkerAt (front ++ acc) i)

include hfront

/-- Bytes that begin no marker only move the earliest one. -/
theorem earliestMarker_append_left_iff {i : Nat} :
    EarliestMarker (front ++ acc) i ↔ ∃ j, EarliestMarker acc j ∧ i = front.length + j := by
  constructor
  · rintro ⟨hm, hfirst⟩
    obtain ⟨j, rfl⟩ := Nat.exists_eq_add_of_le (Nat.not_lt.mp fun hlt => hfront i hlt hm)
    exact ⟨j, ⟨markerAt_append_left.mp hm,
      fun k hk hk' => hfirst _ (Nat.add_lt_add_left hk _) (markerAt_append_left.mpr hk')⟩, rfl⟩
  · rintro ⟨j, ⟨hm, hfirst⟩, rfl⟩
    refine ⟨markerAt_append_left.mpr hm, fun k hk hk' => ?_⟩
    rcases Nat.lt_or_ge k front.length with hlt | hge
    · exact hfront k hlt hk'
    · obtain ⟨l, rfl⟩ := Nat.exists_eq_add_of_le hge
      exact hfirst l (Nat.lt_of_add_lt_add_left hk) (markerAt_append_left.mp hk')

theorem noMarker_append_left (hn : NoMarker acc) : NoMarker (front ++ acc) := by
  intro i hm
  obtain ⟨j, rfl⟩ := Nat.exists_eq_add_of_le (Nat.not_lt.mp fun hlt => hfront i hlt hm)
  exact hn j (markerAt_append_left.mp hm)

end

/-- What the trim drops. -/
def trimmed (acc : List Byte) : List Byte := acc.take (acc.length - 16)

theorem trimmed_append_last16 (acc : List Byte) : trimmed acc ++ last16 acc = acc := List.take_append_drop _ _

/-- In a marker-free accumulator no dropped byte begins a marker, whatever arrives later: sixteen bytes stand behind it
(41_frame_synchronizer.md R116). -/
theorem not_markerAt_trimmed {acc : List Byte} (hn : NoMarker acc) (more : List Byte) :
    ∀ i, i < (trimmed acc).length → ¬ MarkerAt (trimmed acc ++ (last16 acc ++ more)) i := by
  intro i hi hm
  rw [← List.append_assoc, trimmed_append_last16] at hm
  rw [trimmed, List.length_take] at hi
  exact hn i (hm.of_append (by omega))

/-- Settles O35: the trimmed bytes begin no marker (`not_markerAt_trimmed`), so they only move the earliest one. -/
theorem trimLosesNoMarker : Obligations.TrimLosesNoMarker := by
  unfold Obligations.TrimLosesNoMarker
  intro acc more i hn
  have hlen : (trimmed acc).length = acc.length - (last16 acc).length := by
    rw [trimmed, last16, List.length_take, List.length_drop]
    omega
  have hiff := earliestMarker_append_left_iff (not_markerAt_trimmed hn more) (i := i)
  rw [← List.append_assoc, trimmed_append_last16, hlen] at hiff
  simp only [hiff, Nat.add_comm]

/-! ### A run with more bytes in front or behind -/

/-- Two tuples that agree in everything but the accumulator: what the host sees of them. -/
def SameOutside (r r' : Regs) : Prop :=
  r.seqNext = r'.seqNext ∧ r.rejCount = r'.rejCount ∧ r.fault = r'.fault

theorem SameOutside.refl (r : Regs) : SameOutside r r := ⟨rfl, rfl, rfl⟩

/-- A run does not see bytes in front that begin no marker: it extracts the same candidates. -/
theorem IngestRun.append_left {c : Config} {r r' : Regs} {es : List Sample} {front : List Byte}
    (h : IngestRun c r es r') (hfront : ∀ i, i < front.length → ¬ MarkerAt (front ++ r.acc) i) :
    ∃ r'', IngestRun c { r with acc := front ++ r.acc } es r'' ∧ SameOutside r'' r' := by
  have hearliest {i : Nat} (hm : EarliestMarker r.acc i) : EarliestMarker (front ++ r.acc) (front.length + i) :=
    (earliestMarker_append_left_iff hfront).mpr ⟨i, hm, rfl⟩
  have hcandidate {pre rest : List Byte} {w : Window} (ha : r.acc = pre ++ w.bytes ++ rest) :
      front ++ r.acc = front ++ pre ++ w.bytes ++ rest := by rw [ha]; simp only [List.append_assoc]
  have hearliest' {pre : List Byte} (hm : EarliestMarker r.acc pre.length) :
      EarliestMarker (front ++ r.acc) (front ++ pre).length := by
    rw [List.length_append]
    exact hearliest hm
  cases h with
  | noMarker hn => exact ⟨_, .noMarker (noMarker_append_left hfront hn), rfl, rfl, rfl⟩
  | hold hm hl =>
    refine ⟨_, .hold (hearliest hm) ?_, rfl, rfl, rfl⟩
    rw [List.length_append]
    omega
  | accept ha hm hv hs hrun => exact ⟨r', .accept (hcandidate ha) (hearliest' hm) hv hs hrun, .refl r'⟩
  | reject ha hm hv hrun => exact ⟨r', .reject (hcandidate ha) (hearliest' hm) hv hrun, .refl r'⟩
  | exhausted ha hm hv hs => exact ⟨_, .exhausted (hcandidate ha) (hearliest' hm) hv hs, rfl, rfl, rfl⟩

/-- A candidate at the front of an accumulator is one of every longer accumulator. -/
theorem candidate_append {acc pre rest : List Byte} {w : Window} (ha : acc = pre ++ w.bytes ++ rest)
    (more : List Byte) : acc ++ more = pre ++ w.bytes ++ (rest ++ more) := by
  rw [ha, List.append_assoc]

/-- A run that ends in the fault state ends there whatever follows its bytes (60_exceptions.md R153). -/
theorem IngestRun.append_of_fault {c : Config} {r r' : Regs} {es : List Sample} (h : IngestRun c r es r')
    (hr : r.fault = .none) (hr' : r'.fault ≠ .none) (more : List Byte) :
    ∃ r'', IngestRun c { r with acc := r.acc ++ more } es r'' ∧ SameOutside r'' r' := by
  induction h with
  | noMarker => exact absurd hr hr'
  | hold => exact absurd hr hr'
  | accept ha hm hv hs _ ih =>
    obtain ⟨r'', hrun, hsame⟩ := ih hr hr'
    exact ⟨r'', .accept (candidate_append ha more) (hm.append more) hv hs hrun, hsame⟩
  | reject ha hm hv _ ih =>
    obtain ⟨r'', hrun, hsame⟩ := ih hr hr'
    exact ⟨r'', .reject (candidate_append ha more) (hm.append more) hv hrun, hsame⟩
  | exhausted ha hm hv hs =>
    exact ⟨_, .exhausted (candidate_append ha more) (hm.append more) hv hs, rfl, rfl, rfl⟩

/-- A run that ends without a fault and a run on what it left with more bytes join to one run on all the bytes
(41_frame_synchronizer.md R120). -/
theorem IngestRun.append_of_no_fault {c : Config} {r r₁ r₂ : Regs} {es es' : List Sample} {more : List Byte}
    (h : IngestRun c r es r₁) (hf : r₁.fault = .none)
    (h' : IngestRun c { r₁ with acc := r₁.acc ++ more } es' r₂) :
    ∃ r₃, IngestRun c { r with acc := r.acc ++ more } (es ++ es') r₃ ∧ SameOutside r₃ r₂ := by
  induction h with
  | @noMarker r hn =>
    have hjoined := h'.append_left (not_markerAt_trimmed hn more)
    rw [← List.append_assoc, trimmed_append_last16] at hjoined
    exact hjoined
  | hold => exact ⟨r₂, h', .refl r₂⟩
  | accept ha hm hv hs _ ih =>
    obtain ⟨r₃, hrun, hsame⟩ := ih hf h'
    exact ⟨r₃, .accept (candidate_append ha more) (hm.append more) hv hs hrun, hsame⟩
  | reject ha hm hv _ ih =>
    obtain ⟨r₃, hrun, hsame⟩ := ih hf h'
    exact ⟨r₃, .reject (candidate_append ha more) (hm.append more) hv hrun, hsame⟩
  | exhausted => cases hf

/-! ### Feeding a stream -/

/-- A chunk that completes hands out its events before those of the chunks behind it. -/
theorem feed_cons {s t u : State} {chunk : List Byte} {chunks : List (List Byte)} {es : List Sample}
    (hexec : exec (.ingest chunk) s = .next t) (hfeed : feed t chunks = some (u, es)) :
    feed s (chunk :: chunks) = some (u, t.out.events ++ es) := by
  simp only [feed, hexec, hfeed]

/-- In the fault state a stream is dropped chunk by chunk (60_exceptions.md R154). -/
theorem feed_of_faulted {s : State} {r : Regs} {chunks : List (List Byte)} (hwf : s.cfg.wf = true)
    (hb : s.block = .live r) (hf : r.fault ≠ .none) (hl : ∀ chunk ∈ chunks, chunk.length ≤ s.cfg.chunkMax) :
    ∃ t, feed s chunks = some (t, []) ∧ t.block = .live r := by
  induction chunks generalizing s with
  | nil => exact ⟨s, rfl, hb⟩
  | cons chunk chunks ih =>
    obtain ⟨hhead, htail⟩ := List.forall_mem_cons.mp hl
    have hexec : exec (.ingest chunk) s = .next (quiet s) := ingestChunk_faulted hwf hb hhead hf
    obtain ⟨t, hfeed, ht⟩ := ih (s := quiet s) hwf hb htail
    exact ⟨t, feed_cons hexec hfeed, ht⟩

/-- The stream in one piece: from a state that meets the invariant, feeding chunks that fit completes with the events of
the run on the accumulator and the whole stream, and with its counters and fault (41_frame_synchronizer.md R120). -/
theorem feed_run {s : State} {r : Regs} {chunks : List (List Byte)} (hs : s.Inv) (hb : s.block = .live r)
    (hf : r.fault = .none) (hl : ∀ chunk ∈ chunks, chunk.length ≤ s.cfg.chunkMax) :
    ∃ t rt es r', feed s chunks = some (t, es) ∧ t.block = .live rt ∧
      IngestRun s.cfg { r with acc := r.acc ++ chunks.flatten } es r' ∧ SameOutside r' rt := by
  induction chunks generalizing s r with
  | nil =>
    obtain ⟨-, -, -, hform, -⟩ := hs.2.1 r hb
    refine ⟨s, r, [], r, rfl, hb, ?_, .refl r⟩
    rw [List.flatten_nil, List.append_nil]
    exact (hform hf).run_self
  | cons chunk chunks ih =>
    obtain ⟨hhead, htail⟩ := List.forall_mem_cons.mp hl
    obtain ⟨r₁, o, hrun, hexec⟩ := exec_ingest_run hs.1 hb hhead hf
    have ht := exec_keeps_inv hs hexec
    rw [List.flatten_cons, ← List.append_assoc]
    by_cases hf₁ : r₁.fault = .none
    · obtain ⟨t, rt, es, r₂, hfeed, hbt, hrun₂, hsame⟩ := ih ht rfl hf₁ htail
      obtain ⟨r₃, hjoined, hsame₃⟩ := hrun.append_of_no_fault hf₁ hrun₂
      refine ⟨t, rt, o.events ++ es, r₃, feed_cons hexec hfeed, hbt, hjoined, ?_⟩
      exact ⟨hsame₃.1.trans hsame.1, hsame₃.2.1.trans hsame.2.1, hsame₃.2.2.trans hsame.2.2⟩
    · obtain ⟨t, hfeed, hbt⟩ := feed_of_faulted (s := { s with block := .live r₁, out := o }) hs.1 rfl hf₁ htail
      obtain ⟨r₃, hjoined, hsame₃⟩ := hrun.append_of_fault hf hf₁ chunks.flatten
      have hfeed' := feed_cons hexec hfeed
      rw [List.append_nil] at hfeed'
      exact ⟨t, r₁, o.events, r₃, hfeed', hbt, hjoined, hsame₃⟩

/-- Settles O42: without a fault both splits are the one run on the whole stream (`feed_run`), which has one result
(O27); in the fault state both are dropped. -/
theorem chunkBoundariesDoNotMatter : Obligations.ChunkBoundariesDoNotMatter := by
  unfold Obligations.ChunkBoundariesDoNotMatter
  intro s r cs ds hs hb hcs hds hstream
  by_cases hf : r.fault = .none
  · obtain ⟨t, rt, es, r₁, hfeed, hbt, hrun, hseq, hrej, hfault⟩ := feed_run hs hb hf hcs
    obtain ⟨u, ru, es', r₂, hfeed', hbu, hrun', hseq', hrej', hfault'⟩ := feed_run hs hb hf hds
    rw [← hstream] at hrun'
    obtain ⟨rfl, rfl⟩ := pseudocodeIsDeterministic _ _ _ _ _ _ hrun hrun'
    exact ⟨t, u, es, rt, ru, hfeed, hfeed', hbt, hbu, hseq.symm.trans hseq', hrej.symm.trans hrej',
      hfault.symm.trans hfault'⟩
  · obtain ⟨t, hfeed, hbt⟩ := feed_of_faulted hs.1 hb hf hcs
    obtain ⟨u, hfeed', hbu⟩ := feed_of_faulted hs.1 hb hf hds
    exact ⟨t, u, [], r, r, hfeed, hfeed', hbt, hbu, rfl, rfl, rfl⟩

/-! ### A stream without a marker -/

/-- A marker-free stream leaves the accumulator in form (a), chunk by chunk (41_frame_synchronizer.md R121). -/
theorem feed_of_noMarker {s : State} {r : Regs} {chunks : List (List Byte)} (hwf : s.cfg.wf = true)
    (hb : s.block = .live r) (hf : r.fault = .none) (hl : ∀ chunk ∈ chunks, chunk.length ≤ s.cfg.chunkMax)
    (hn : NoMarker (r.acc ++ chunks.flatten)) (hlen : r.acc.length ≤ 16) :
    ∃ t acc, feed s chunks = some (t, []) ∧ t.block = .live { r with acc := acc } ∧ acc.length ≤ 16 := by
  induction chunks generalizing s r with
  | nil => exact ⟨s, r.acc, rfl, hb, hlen⟩
  | cons chunk chunks ih =>
    obtain ⟨hhead, htail⟩ := List.forall_mem_cons.mp hl
    rw [List.flatten_cons, ← List.append_assoc] at hn
    have hnow : NoMarker (r.acc ++ chunk) := fun i hm => hn i (hm.append _)
    obtain ⟨kept, o, hexec, hevents, ⟨front, hfront⟩, hkept⟩ :=
      noMarkerTrimsToSixteen.1 s r chunk hwf hb hf hhead hnow
    have hlater : NoMarker (kept ++ chunks.flatten) := by
      intro i hm
      rw [← hfront, List.append_assoc] at hn
      exact hn _ (markerAt_append_left.mpr hm)
    obtain ⟨t, acc, hfeed, hbt, hacc⟩ := ih (s := { s with block := .live { r with acc := kept }, out := o })
      (r := { r with acc := kept }) hwf rfl hf htail hlater (hkept.trans_le (Nat.min_le_left _ _))
    have hfeed' := feed_cons hexec hfeed
    rw [hevents] at hfeed'
    exact ⟨t, acc, hfeed', hbt, hacc⟩

/-- Settles O41: `feed_of_noMarker`; a marker-free accumulator that meets the invariant is in form (a). -/
theorem noiseYieldsNothing : Obligations.NoiseYieldsNothing := by
  unfold Obligations.NoiseYieldsNothing
  intro s r chunks ⟨hwf, hlive, _⟩ hb hf hl hn
  obtain ⟨-, -, -, hform, -⟩ := hlive r hb
  refine feed_of_noMarker hwf hb hf hl hn ?_
  obtain ⟨-, hlen⟩ | ⟨i, hm, -⟩ := hform hf
  · exact hlen
  · exact absurd (hm.1.append _) (hn i)

/-! ### The candidates of a stream -/

theorem candidates_of_noMarker {acc : List Byte} (n : Nat) (hn : NoMarker acc) : candidates n acc = [] := by
  cases n with
  | zero => rfl
  | succ n => simp only [candidates, scan_eq_none_iff.mpr hn]

theorem candidates_of_hold {acc : List Byte} {i : Nat} (n : Nat) (hm : EarliestMarker acc i)
    (hl : acc.length < i + 16) : candidates n acc = [] := by
  cases n with
  | zero => rfl
  | succ n =>
    have hshort : ((acc.drop i).take 16).length ≠ 16 := by
      rw [List.length_take, List.length_drop]
      omega
    simp only [candidates, scan_eq_some_iff.mpr hm, Window.ofBytes_eq_none hshort]

/-- A whole window at the earliest marker is the first candidate, and the others follow behind it
(41_frame_synchronizer.md R122). -/
theorem candidates_of_whole {acc pre rest : List Byte} {w : Window} (n : Nat) (ha : acc = pre ++ w.bytes ++ rest)
    (hm : EarliestMarker acc pre.length) : candidates (n + 1) acc = w :: candidates n rest := by
  have hwindow : (acc.drop pre.length).take 16 = w.bytes := by
    rw [ha, List.append_assoc, List.drop_left, List.take_left' w.bytes_length]
  have hrest : acc.drop (pre.length + 16) = rest := by
    rw [ha]
    exact List.drop_left' (by rw [List.length_append, w.bytes_length])
  simp only [candidates, scan_eq_some_iff.mpr hm, hwindow, hrest, Window.ofBytes_bytes]

/-- The candidates that are accepted, and the rejected ones. -/
abbrev accepted (ws : List Window) : List Window := ws.filter fun w => w.valid

abbrev rejected (ws : List Window) : List Window := ws.filter fun w => !w.valid

theorem accepted_cons_of_valid {w : Window} {ws : List Window} (hv : w.valid = true) :
    accepted (w :: ws) = w :: accepted ws := List.filter_cons_of_pos hv

theorem accepted_cons_of_not_valid {w : Window} {ws : List Window} (hv : w.valid = false) :
    accepted (w :: ws) = accepted ws := List.filter_cons_of_neg (Bool.eq_false_iff.mp hv)

theorem rejected_cons_of_valid {w : Window} {ws : List Window} (hv : w.valid = true) :
    rejected (w :: ws) = rejected ws := List.filter_cons_of_neg (by rw [hv]; decide)

theorem rejected_cons_of_not_valid {w : Window} {ws : List Window} (hv : w.valid = false) :
    rejected (w :: ws) = w :: rejected ws := List.filter_cons_of_pos (by rw [hv]; rfl)

/-- Bytes enough for a window leave a pass for it and bytes enough behind it. -/
theorem exists_fuel_of_whole {acc pre rest : List Byte} {w : Window} {n : Nat} (ha : acc = pre ++ w.bytes ++ rest)
    (hn : acc.length ≤ n) : ∃ m, n = m + 1 ∧ rest.length ≤ m := by
  rw [ha] at hn
  simp only [List.length_append, Window.bytes_length] at hn
  exact ⟨n - 1, by omega, by omega⟩

/-- Where every accepted candidate has an index, a run emits exactly their samples in order, counts exactly the rejected
ones, and does not fault (41_frame_synchronizer.md R122, 42_outputs_and_sequencing.md R133, R134). -/
theorem IngestRun.decodes_candidates {c : Config} {r r' : Regs} {es : List Sample} {n : Nat} (h : IngestRun c r es r')
    (hn : r.acc.length ≤ n) (hroom : r.seqNext + (accepted (candidates n r.acc)).length ≤ 2 ^ c.seqWidth)
    (hf : r.fault = .none) (hrej : r.rejCount < 2 ^ c.rejWidth) :
    es = numbered r.seqNext (accepted (candidates n r.acc)) ∧ r'.fault = .none ∧
      r'.seqNext = r.seqNext + (accepted (candidates n r.acc)).length ∧
      r'.rejCount = (r.rejCount + (rejected (candidates n r.acc)).length) % 2 ^ c.rejWidth := by
  induction h generalizing n with
  | noMarker hm =>
    rw [candidates_of_noMarker n hm]
    exact ⟨rfl, hf, rfl, (Nat.mod_eq_of_lt hrej).symm⟩
  | hold hm hl =>
    rw [candidates_of_hold n hm hl]
    exact ⟨rfl, hf, rfl, (Nat.mod_eq_of_lt hrej).symm⟩
  | accept ha hm hv hs _ ih =>
    obtain ⟨m, rfl, hrest⟩ := exists_fuel_of_whole ha hn
    rw [candidates_of_whole m ha hm, accepted_cons_of_valid hv] at hroom ⊢
    rw [rejected_cons_of_valid hv]
    rw [List.length_cons, ← Nat.add_assoc, Nat.add_right_comm] at hroom ⊢
    obtain ⟨rfl, hf', hseq, hrej'⟩ := ih hrest hroom hf hrej
    exact ⟨rfl, hf', hseq, hrej'⟩
  | reject ha hm hv _ ih =>
    obtain ⟨m, rfl, hrest⟩ := exists_fuel_of_whole ha hn
    rw [candidates_of_whole m ha hm, accepted_cons_of_not_valid hv] at hroom ⊢
    obtain ⟨hes, hf', hseq, hrej'⟩ := ih hrest hroom hf (Nat.mod_lt _ (Nat.two_pow_pos _))
    refine ⟨hes, hf', hseq, hrej'.trans ?_⟩
    rw [rejected_cons_of_not_valid hv, List.length_cons, Nat.mod_add_mod, Nat.add_right_comm, Nat.add_assoc]
  | exhausted ha hm hv hs =>
    obtain ⟨m, rfl, -⟩ := exists_fuel_of_whole ha hn
    rw [candidates_of_whole m ha hm, accepted_cons_of_valid hv, List.length_cons] at hroom
    omega

/-- Settles O43: the stream is one run on all its bytes (`feed_run`), and `IngestRun.decodes_candidates` says what a
run emits and counts. -/
theorem streamIsDecodedInOrder : Obligations.StreamIsDecodedInOrder := by
  unfold Obligations.StreamIsDecodedInOrder
  intro s r chunks hs hb hf hl found hroom
  obtain ⟨t, rt, es, r', hfeed, hbt, hrun, hseq, hrej, hfault⟩ := feed_run hs hb hf hl
  obtain ⟨-, -, hrange, -⟩ := hs.2.1 r hb
  obtain ⟨rfl, hf', hseq', hrej'⟩ := hrun.decodes_candidates (Nat.le_refl _) hroom hf hrange
  exact ⟨t, rt, hfeed, hbt, hfault.symm.trans hf', hseq.symm.trans hseq', hrej.symm.trans hrej'⟩

end Sys2Proof.Machine
end
